-- ==== Sys2Proof/Word.lean ====
section
/-! DEFINITION. Word.lean: the bit-vector types HEXCODEC's registers, addresses and bytes have (00_scope.md R6, R7). -/

namespace Sys2Proof

/-- A 4-bit nibble, "half of one byte" (00_scope.md, glossary). -/
abbrev Nibble := BitVec 4

/-- One byte of buffer memory, one ROM entry or one character (20_memory.md R63). -/
abbrev Byte := BitVec 8

/-- A register slot's value, a command word or a length (00_scope.md R6: RW = LW = 32). -/
abbrev Word := BitVec 32

/-- A buffer-memory address; `+` wraps modulo 2^32 (00_scope.md R6, R7: AW = 32; 20_memory.md R62). -/
abbrev Addr := BitVec 32

end Sys2Proof
end

