-- ==== Sys2Proof/Config.lean ====
section
/-! DEFINITION. Config.lean: the implementation parameters the spec fixes (00_scope.md R6) and the free values it leaves open
(93_implementation_defined.md, section 2). A free value has no body: no proof can see what it is. -/

namespace Sys2Proof.Config

/-- SENTINEL, "the DEC_ROM value for a non-hex-digit byte" (00_scope.md R6, 10_state.md R25). -/
def sentinel : Byte := 0xFF

/-- NSLOT, the word slots of the register window (00_scope.md R6, 10_state.md R28). -/
def nslot : Nat := 16

/-- FREE VALUE: what a read of a register other than STATUS returns while BUSY = 1 (10_state.md R45, S1), for the draw
counter's value at the read. Log 4. -/
opaque busyReadWord : Nat → Word

/-- FREE VALUE: what each byte of an abandoned command's write set holds after a reset while BUSY = 1
(70_reset_and_hazards.md R225, S2), for the draw counter's value at the reset and the byte's address. Log 4. -/
opaque abandonedByte : Nat → Addr → Byte

/-- FREE VALUE: LATENCY as the number of host turns between a command's acceptance and its completion (00_scope.md R6, R13,
70_reset_and_hazards.md R234, S3), for the draw counter's value at acceptance. Any finite number. Log 3. -/
opaque latency : Nat → Nat

end Sys2Proof.Config
end

