-- ==== Sys2Proof/Syntax.lean ====
section
/-! DEFINITION. Syntax.lean: the nine commands, one constructor per row of spec/opcode_table.json (30_encoding.md R87). -/

namespace Sys2Proof

/-- A command. Every operand but IDX and the case is taken from registers (30_encoding.md R94); IDX is an unsigned 8-bit
index (R89) and the case is part of the mnemonic (R97). -/
inductive Instr where
  /-- ENC.L: encode the source region in lower case (40_slice_codec.md R111). -/
  | encL
  /-- ENC.U: encode the source region in upper case (R112). -/
  | encU
  /-- DEC: decode the source region (R116). -/
  | dec
  /-- ILOAD.L: start a lower-case iteration (42_iterator.md R161). -/
  | iloadL
  /-- ILOAD.U: start an upper-case iteration (R162). -/
  | iloadU
  /-- INEXT: the iteration's next character (R163). -/
  | inext
  /-- TBLRD.EL: read ENC_LO_ROM at IDX[3:0] (43_table_read.md R181). -/
  | tblrdEL (idx : Byte)
  /-- TBLRD.EU: read ENC_UP_ROM at IDX[3:0] (R182). -/
  | tblrdEU (idx : Byte)
  /-- TBLRD.D: read DEC_ROM at IDX[7:0] (R183). -/
  | tblrdD (idx : Byte)
deriving DecidableEq, Repr

end Sys2Proof
end

