-- ==== Sys2Proof/WellFormed.lean ====
section
/-! DEFINITION. WellFormed.lean: which commands have an encoding (30_encoding.md R89, R91). -/

namespace Sys2Proof

/-- An encode-ROM index fits the ROM's 16 entries: IDX[7:4] = 0 (30_encoding.md R89). -/
def encodeIndexOk (idx : Byte) : Bool := decide (idx.toNat < 16)

/-- The command has an encoding: TBLRD.EL and TBLRD.EU "require IDX[7:4] = 0", and every other command admits all its
operands (30_encoding.md R89, R91). -/
def Instr.wellFormed : Instr → Bool
  | .encL => true
  | .encU => true
  | .dec => true
  | .iloadL => true
  | .iloadU => true
  | .inext => true
  | .tblrdEL idx => encodeIndexOk idx
  | .tblrdEU idx => encodeIndexOk idx
  | .tblrdD _ => true

end Sys2Proof
end

