-- ==== Sys2Proof/Decode.lean ====
section
/-! DEFINITION. Decode.lean: the command word's fields (30_encoding.md R83), the decoder, total on every 32-bit word
(R90, R91), the encoder (R87, R97), and the opcode table's match and mask columns (R87). -/

namespace Sys2Proof

/-- OP, bits [3:0] (30_encoding.md R83). -/
def fieldOp (v : Word) : BitVec 4 := v.extractLsb' 0 4
/-- CASE, bit [4]: 0 = lower case, 1 = upper case (R83). -/
def fieldCase (v : Word) : Bool := v.getLsbD 4
/-- T, bit [5]: 0 = an encode ROM, 1 = DEC_ROM (R83). -/
def fieldT (v : Word) : Bool := v.getLsbD 5
/-- Bits [7:6], reserved, must be 0 (R83). -/
def fieldReservedLow (v : Word) : BitVec 2 := v.extractLsb' 6 2
/-- IDX, bits [15:8] (R83). -/
def fieldIdx (v : Word) : Byte := v.extractLsb' 8 8
/-- Bits [31:16], reserved, must be 0 (R83). -/
def fieldReservedHigh (v : Word) : BitVec 16 := v.extractLsb' 16 16

/-- Why a word is reserved: one constructor per line of 30_encoding.md R91. -/
inductive Reserved where
  /-- "any word with v[7:6] ≠ 0 or v[31:16] ≠ 0". -/
  | reservedBits
  /-- "OP = 0x0, and OP in 0x6–0xF". -/
  | opcode
  /-- "T = 1 with OP ≠ 5". -/
  | tBit
  /-- "CASE = 1 with OP = DEC or INEXT". -/
  | caseBit
  /-- "IDX ≠ 0 with OP ≠ 5". -/
  | index
  /-- "OP = 5, T = 0 with IDX[7:4] ≠ 0". -/
  | encodeIndex
  /-- "OP = 5, T = 1, CASE = 1". -/
  | decodeRomCase
deriving DecidableEq, Repr

/-- What a word decodes to: a command, or reserved with the reason (30_encoding.md R90). -/
inductive Decoded where
  | instr (i : Instr)
  | reserved (why : Reserved)
deriving DecidableEq, Repr

/-- The rows OP = 1 and OP = 3 of Decode: "if t = 0 and idx = 0" (30_encoding.md R90). -/
def decodeCased (v : Word) (lower upper : Instr) : Decoded :=
  if fieldT v then .reserved .tBit
  else if fieldIdx v ≠ 0 then .reserved .index
  else .instr (if fieldCase v then upper else lower)

/-- The rows OP = 2 and OP = 4 of Decode: "if c = 0 and t = 0 and idx = 0" (R90). -/
def decodePlain (v : Word) (i : Instr) : Decoded :=
  if fieldT v then .reserved .tBit
  else if fieldCase v then .reserved .caseBit
  else if fieldIdx v ≠ 0 then .reserved .index
  else .instr i

/-- The row OP = 5 of Decode (R90). -/
def decodeTableRead (v : Word) : Decoded :=
  if fieldT v then
    if fieldCase v then .reserved .decodeRomCase else .instr (.tblrdD (fieldIdx v))
  else if encodeIndexOk (fieldIdx v) then
    .instr (if fieldCase v then .tblrdEU (fieldIdx v) else .tblrdEL (fieldIdx v))
  else .reserved .encodeIndex

/-- Decode(v), "total on every 32-bit word" (30_encoding.md R90). -/
def decode (v : Word) : Decoded :=
  if fieldReservedHigh v ≠ 0 ∨ fieldReservedLow v ≠ 0 then .reserved .reservedBits
  else if fieldOp v = 1 then decodeCased v .encL .encU
  else if fieldOp v = 2 then decodePlain v .dec
  else if fieldOp v = 3 then decodeCased v .iloadL .iloadU
  else if fieldOp v = 4 then decodePlain v .inext
  else if fieldOp v = 5 then decodeTableRead v
  else .reserved .opcode

/-- The command a word decodes to, if any: the word is accepted exactly when there is one (30_encoding.md R84, R85). -/
def Decoded.instr? : Decoded → Option Instr
  | .instr i => some i
  | .reserved _ => none

/-- A row's word with IDX put in bits [15:8] (30_encoding.md R87: 0x0000ii.. with IDX shown as i). -/
def wordWithIdx (base : Word) (idx : Byte) : Word := base ||| (idx.setWidth 32 <<< 8)

/-- The word of a command, the "word" column of 30_encoding.md R87. -/
def encode : Instr → Word
  | .encL => 0x00000001
  | .encU => 0x00000011
  | .dec => 0x00000002
  | .iloadL => 0x00000003
  | .iloadU => 0x00000013
  | .inext => 0x00000004
  | .tblrdEL idx => wordWithIdx 0x00000005 idx
  | .tblrdEU idx => wordWithIdx 0x00000015 idx
  | .tblrdD idx => wordWithIdx 0x00000025 idx

/-- The opcode table: (mnemonic, match, mask), with match "the word with IDX = 0" (30_encoding.md R87). -/
def opcodeRows : List (String × Word × Word) :=
  [("ENC.L", 0x00000001, 0xFFFFFFFF), ("ENC.U", 0x00000011, 0xFFFFFFFF), ("DEC", 0x00000002, 0xFFFFFFFF),
   ("ILOAD.L", 0x00000003, 0xFFFFFFFF), ("ILOAD.U", 0x00000013, 0xFFFFFFFF), ("INEXT", 0x00000004, 0xFFFFFFFF),
   ("TBLRD.EL", 0x00000005, 0xFFFFF0FF), ("TBLRD.EU", 0x00000015, 0xFFFFF0FF), ("TBLRD.D", 0x00000025, 0xFFFF00FF)]

/-- "A word matches a row when (word & mask) = (match & mask)" (30_encoding.md R87). -/
def matchesRow (v : Word) (row : String × Word × Word) : Bool := v &&& row.2.2 == row.2.1 &&& row.2.2

/-- The opcode-table row of a command (R87, R97). -/
def mnemonic : Instr → String
  | .encL => "ENC.L"
  | .encU => "ENC.U"
  | .dec => "DEC"
  | .iloadL => "ILOAD.L"
  | .iloadU => "ILOAD.U"
  | .inext => "INEXT"
  | .tblrdEL _ => "TBLRD.EL"
  | .tblrdEU _ => "TBLRD.EU"
  | .tblrdD _ => "TBLRD.D"

/-- The command read from an instruction of `nbits` bits. Every command is one 32-bit word (30_encoding.md R93), so a number
that does not fit one is no command; the register bus carries the word whole and has no byte order (R80). -/
def decodeTableWord (nbits w : Nat) : Option Instr :=
  let bits := w % 2 ^ nbits
  if bits < 2 ^ 32 then (decode (BitVec.ofNat 32 bits)).instr? else none

end Sys2Proof
end

