-- ==== Sys2Proof/Machine/State.lean ====
section
/-! DEFINITION. Machine/State.lean: HEXCODEC's state (10_state.md R51), the outside world's pending actions and what the host
has read, the reasons a step can stop, and the state right after reset (70_reset_and_hazards.md R221). -/

namespace Sys2Proof.Machine

/-- The buffer memory as (address, byte) pairs in canonical form (`Memory.wf`): the finite writing of R60's total function
from 2^32 addresses to bytes. Log 1. -/
abbrev Memory := List Host.Cell

/-- One action of the outside world at HEXCODEC's interface, in the order `Env.todo` gives (00_scope.md R11, 30_encoding.md
R95, 70_reset_and_hazards.md R220). The host's actions and the reset input's edges share that one order. Log 2, 10. -/
inductive HostAction where
  /-- A register-bus write of a word at a window offset (30_encoding.md R80, R81). -/
  | busWrite (off : BitVec 6) (v : Word)
  /-- A register-bus read at a window offset (R80, R82). -/
  | busRead (off : BitVec 6)
  /-- A host write of one byte of buffer memory (20_memory.md R60, R70). -/
  | memWrite (a : Addr) (b : Byte)
  /-- A host read of one byte of buffer memory (R60, R70). -/
  | memRead (a : Addr)
  /-- `poll`: read STATUS until BUSY = 0 (30_encoding.md R96). -/
  | poll
  /-- The label `loop:` of ENCODE_ITER with the host's dst + k: issue INEXT, poll, then `iterRead` (42_iterator.md R165). -/
  | iterLoop (dst : Addr)
  /-- ENCODE_ITER's `rd RESULT` and its branch: store the character and loop, or end when v[8] = 0 (R165). -/
  | iterRead (dst : Addr)
  /-- The reset input is asserted (70_reset_and_hazards.md R220, R221, R225). -/
  | resetAssert
  /-- The reset input is released (R220). -/
  | resetRelease
deriving DecidableEq, Repr

/-- What the host observed. -/
inductive Observation where
  /-- A register read at a window offset; `none` when the block was in reset and accepted no access (R220, log 5). -/
  | reg (off : BitVec 6) (v : Option Word)
  /-- A byte of buffer memory read by the host. -/
  | byte (a : Addr) (b : Byte)
deriving DecidableEq, Repr

/-- The model's own fields: the outside world's side of a run. Log 2, 3, 4. -/
structure Env where
  /-- The pending actions, the next one first. -/
  todo : List HostAction
  /-- What the host has read, the newest first. -/
  seen : List Observation
  /-- Host turns left before ENGINE completes the latched command (LATENCY, R234). -/
  turns : Nat
  /-- Latencies the launch state fixes for the next accepted commands; when none is left, a free value is drawn. -/
  latencies : List Nat
  /-- How many free values have been drawn. -/
  draws : Nat
deriving DecidableEq, Repr

/-- HEXCODEC's state: the record of 10_state.md R51, the reset input's level (R220) and the model's own `env`. -/
structure State where
  /-- The buffer memory (20_memory.md R60). -/
  mem : Memory
  /-- SRC_ADDR (10_state.md R35). -/
  srcAddr : Word
  /-- SRC_LEN (R36). -/
  srcLen : Word
  /-- DST_ADDR (R37). -/
  dstAddr : Word
  /-- DST_LEN (R38). -/
  dstLen : Word
  /-- STATUS.BUSY (R30). -/
  busy : Bool
  /-- STATUS.DONE (R31). -/
  done : Bool
  /-- STATUS.BADCMD (R33). -/
  badcmd : Bool
  /-- STATUS.ERR (R32). -/
  err : BitVec 2
  /-- ERR_CHAR[7:0] (R39). -/
  errChar : Byte
  /-- ERR_INDEX (R40). -/
  errIndex : Word
  /-- RESULT.VALID (R41). -/
  resValid : Bool
  /-- RESULT.VALUE (R41). -/
  resValue : Byte
  /-- ITER_ADDR (R42). -/
  iterAddr : Word
  /-- ITER_REM (R43). -/
  iterRem : Word
  /-- ITER_STATE.PEND (R44). -/
  pend : Bool
  /-- ITER_STATE.CASE: true = upper case (R44). -/
  icase : Bool
  /-- ITER_STATE.PCHAR (R44). -/
  pchar : Byte
  /-- LATCH: empty or one accepted command word (R48). -/
  latch : Option Word
  /-- The reset input is asserted (70_reset_and_hazards.md R220). -/
  resetAsserted : Bool
  /-- The model's own fields. -/
  env : Env
deriving DecidableEq, Repr

/-- Why a step is stuck. No run from a state that meets the model's invariant reaches one: "HEXCODEC itself never faults"
(00_scope.md R12). Log 7. -/
inductive Fault where
  /-- Raised by `step`: ENGINE's turn with an empty latch, though BUSY = 1 (against 10_state.md R48). Safe. -/
  | latchEmpty
  /-- Raised by `step`: ENGINE's turn with a reserved word in the latch (against 30_encoding.md R85). Safe. -/
  | latchReserved
deriving DecidableEq, Repr

/-- Why a step is refused. -/
inductive Refusal where
  /-- An instruction without a meaning yet; no arm of `exec` uses it. Safe. -/
  | notModelled (mnemonic : String)
  /-- Raised by a host read of the running command's write set while BUSY = 1: "not admitted" (20_memory.md R70,
  70_reset_and_hazards.md R228(a)). The spec calls this "toward proving", so it is unsafe for a host that breaks the duty. -/
  | hostReadsWriteSet (a : Addr)
  /-- Raised by a host write to the running command's read or write set while BUSY = 1 (R70, R228(a)). Unsafe likewise. -/
  | hostWritesBusySet (a : Addr)
deriving DecidableEq, Repr

/-- The outside world before it does anything: nothing pending, nothing seen. Log 2, 3, 4. -/
def Env.initial : Env := { todo := [], seen := [], turns := 0, latencies := [], draws := 0 }

/-- The machine right after reset is released: every register 0, LATCH empty (70_reset_and_hazards.md R221), memory with
nothing listed (log 1). -/
def State.reset : State :=
  { mem := []
    srcAddr := 0
    srcLen := 0
    dstAddr := 0
    dstLen := 0
    busy := false
    done := false
    badcmd := false
    err := 0
    errChar := 0
    errIndex := 0
    resValid := false
    resValue := 0
    iterAddr := 0
    iterRem := 0
    pend := false
    icase := false
    pchar := 0
    latch := none
    resetAsserted := false
    env := Env.initial }

end Sys2Proof.Machine
end

