-- ==== Sys2Proof/Machine/Operands.lean ====
section
/-! DEFINITION. Machine/Operands.lean: the lookup ROMs (10_state.md R20–R27), nibbles, region addresses (20_memory.md R62) and
the exact length conditions (40_slice_codec.md R110, R113, R117). -/

namespace Sys2Proof.Machine

/-- b[7:4] (00_scope.md R7, 40_slice_codec.md R122). -/
def hiNibble (b : Byte) : Nibble := b.extractLsb' 4 4

/-- b[3:0] (00_scope.md R7, 40_slice_codec.md R122). -/
def loNibble (b : Byte) : Nibble := b.extractLsb' 0 4

/-- `(h << 4) | l` in 8 bits (40_slice_codec.md R116, R119, R122). -/
def joinNibbles (h l : Nibble) : Byte := (h.setWidth 8 <<< 4) ||| l.setWidth 8

/-- ENC_LO_ROM's entries, in order (10_state.md R21 and its table). -/
def encLoTable : Vector Byte 16 :=
  #v[0x30, 0x31, 0x32, 0x33, 0x34, 0x35, 0x36, 0x37, 0x38, 0x39, 0x61, 0x62, 0x63, 0x64, 0x65, 0x66]

/-- ENC_UP_ROM's entries, in order (10_state.md R22 and its table). -/
def encUpTable : Vector Byte 16 :=
  #v[0x30, 0x31, 0x32, 0x33, 0x34, 0x35, 0x36, 0x37, 0x38, 0x39, 0x41, 0x42, 0x43, 0x44, 0x45, 0x46]

/-- ENC_LO_ROM (10_state.md R21). -/
def encLoRom (n : Nibble) : Byte := encLoTable[n.toNat]

/-- ENC_UP_ROM (10_state.md R22). -/
def encUpRom (n : Nibble) : Byte := encUpTable[n.toNat]

/-- The encode ROM a case selects: 0 = lower, 1 = upper (30_encoding.md R88). -/
def romOfCase (upper : Bool) : Nibble → Byte := if upper then encUpRom else encLoRom

/-- DEC_ROM: the digits (10_state.md R23), the letters of both cases (R24), and SENTINEL everywhere else (R25). -/
def decRom (c : Byte) : Byte :=
  if 0x30 ≤ c ∧ c ≤ 0x39 then c - 0x30
  else if 0x61 ≤ c ∧ c ≤ 0x66 then c - 0x61 + 10
  else if 0x41 ≤ c ∧ c ≤ 0x46 then c - 0x41 + 10
  else Config.sentinel

/-- `valid(c)`: DEC_ROM[c] ≠ SENTINEL (10_state.md R27). -/
def valid (c : Byte) : Bool := decRom c != Config.sentinel

/-- `nib(c)` = DEC_ROM[c][3:0] (10_state.md R27). -/
def nib (c : Byte) : Nibble := loNibble (decRom c)

/-- The address of byte k of a region that starts at `base`: (base + k) mod 2^32 (20_memory.md R62). -/
def byteAddr (base : Addr) (k : Nat) : Addr := base + BitVec.ofNat 32 k

/-- A region of buffer memory: `len` bytes from `base`, wrapping at the top (20_memory.md R62). -/
structure Region where
  base : Addr
  len : Nat
deriving DecidableEq, Repr

/-- The empty set of addresses. -/
def Region.empty : Region := { base := 0, len := 0 }

/-- The address is one of base + k mod 2^32 for k < len (20_memory.md R62, R67). -/
def Region.contains (r : Region) (a : Addr) : Bool := decide ((a - r.base).toNat < r.len)

/-- ENC.x's precondition m = 2·n, on exact integers (40_slice_codec.md R110, R111, R113). -/
def encLengthOk (n m : Word) : Bool := m.toNat == 2 * n.toNat

/-- DEC's first check: n[0] = 1 (40_slice_codec.md R116, R117). -/
def isOddLength (n : Word) : Bool := n.getLsbD 0

/-- DEC's second check m = n/2 (40_slice_codec.md R116, R117). -/
def decLengthOk (n m : Word) : Bool := m.toNat == n.toNat / 2

end Sys2Proof.Machine
end

