-- ==== Sys2Proof/Machine/Flags.lean ====
section
/-! DEFINITION. Machine/Flags.lean: a command's result and the error record it leaves (60_exceptions.md R191–R194), and the
packing of the STATUS, ERR_CHAR, RESULT and ITER_STATE words (30_encoding.md R82). -/

namespace Sys2Proof.Machine

/-- How a command's body ends: `ok()` or one `raise`, the closed taxonomy of 60_exceptions.md R191. -/
inductive CmdResult where
  | ok
  | invalidHexCharacter (character : Byte) (index : Word)
  | oddLength
  | invalidStringLength
deriving DecidableEq, Repr

/-- The ERR code (60_exceptions.md R192, 10_state.md R32). -/
def CmdResult.code : CmdResult → BitVec 2
  | .ok => 0
  | .invalidHexCharacter _ _ => 1
  | .oddLength => 2
  | .invalidStringLength => 3

/-- What ERR_CHAR records: the offending byte, 0 for every other result (60_exceptions.md R192, R194). -/
def CmdResult.char : CmdResult → Byte
  | .invalidHexCharacter c _ => c
  | _ => 0

/-- What ERR_INDEX records: the offending byte's position, 0 for every other result (60_exceptions.md R192, R194). -/
def CmdResult.index : CmdResult → Word
  | .invalidHexCharacter _ k => k
  | _ => 0

/-- One bit as a word of the given width. -/
def bit (b : Bool) : BitVec 1 := BitVec.ofBool b

/-- The STATUS word {27'b0, BADCMD, ERR[1:0], DONE, BUSY} (30_encoding.md R82, 10_state.md R30–R34). -/
def statusWord (s : State) : Word := 0#27 ++ bit s.badcmd ++ s.err ++ bit s.done ++ bit s.busy

/-- The ERR_CHAR word {24'b0, CHAR} (30_encoding.md R82, 10_state.md R39). -/
def errCharWord (s : State) : Word := 0#24 ++ s.errChar

/-- The RESULT word {23'b0, VALID, VALUE} (30_encoding.md R82, 10_state.md R41). -/
def resultWord (s : State) : Word := 0#23 ++ bit s.resValid ++ s.resValue

/-- The ITER_STATE word {16'b0, PCHAR, 6'b0, CASE, PEND} (30_encoding.md R82, 10_state.md R44). -/
def iterStateWord (s : State) : Word := 0#16 ++ s.pchar ++ 0#6 ++ bit s.icase ++ bit s.pend

/-- The value of a register slot while BUSY = 0 (30_encoding.md R82): CMD and the unmapped slots read 0. -/
def slotWord (slot : BitVec 4) (s : State) : Word :=
  match slot.toNat with
  | 1 => statusWord s
  | 2 => s.srcAddr
  | 3 => s.srcLen
  | 4 => s.dstAddr
  | 5 => s.dstLen
  | 6 => errCharWord s
  | 7 => s.errIndex
  | 8 => resultWord s
  | 9 => s.iterAddr
  | 10 => s.iterRem
  | 11 => iterStateWord s
  | _ => 0

end Sys2Proof.Machine
end

