-- ==== Sys2Proof/Machine/Ops.lean ====
section
/-! DEFINITION. Machine/Ops.lean: the shared operations: one byte of buffer memory (20_memory.md R61), a command's record and
completion (60_exceptions.md R194, 30_encoding.md R86), acceptance and rejection (R84, R85), and the read and write sets (R67). -/

namespace Sys2Proof.Machine

/-! ## Buffer memory -/

/-- What an address that is not listed reads as: 0x00. DESIGN CHOICE, log 1: 20_memory.md R75 leaves the initial contents to
the launch state. -/
def unlistedByte : Byte := 0

/-- The cells are canonical: every address below 2^32 and above `lo`, strictly rising, no byte equal to `unlistedByte`. -/
def Memory.wfFrom : Nat → Memory → Bool
  | _, [] => true
  | lo, (a, b) :: m => decide (lo ≤ a) && decide (a < 2 ^ 32) && b != unlistedByte && Memory.wfFrom (a + 1) m

/-- The canonical form: equal memories are equal lists. Log 1. -/
def Memory.wf (m : Memory) : Bool := Memory.wfFrom 0 m

/-- The byte listed for an address, or what an unlisted address reads as. -/
def lookupCell : Memory → Nat → Byte
  | [], _ => unlistedByte
  | (k, x) :: m, a => if a = k then x else lookupCell m a

/-- A cell in front of a list, left out when it says what an unlisted address reads as. -/
def consCell (a : Nat) (v : Byte) (m : Memory) : Memory := if v = unlistedByte then m else (a, v) :: m

/-- The list with the byte at one address replaced, in canonical form. -/
def putCell : Memory → Nat → Byte → Memory
  | [], a, v => consCell a v []
  | (k, x) :: m, a, v =>
    if a < k then consCell a v ((k, x) :: m)
    else if a = k then consCell a v m
    else (k, x) :: putCell m a v

/-- `MemRead(a, 1)`: mem[a]; cannot fail (20_memory.md R61, R74). -/
def readByte (m : Memory) (a : Addr) : Byte := lookupCell m a.toNat

/-- `MemWrite(a, 1, v)`: mem[a] <- v, with no effect on any other address; cannot fail (20_memory.md R61, R74). -/
def writeByte (m : Memory) (a : Addr) (v : Byte) : Memory := putCell m a.toNat v

/-! ## A command's end -/

/-- The record of `ok()` or `raise E(info)`: ERR, ERR_CHAR and ERR_INDEX, and no other state (60_exceptions.md R194, R198;
00_scope.md R9). -/
def recordResult (r : CmdResult) (s : State) : State :=
  { s with err := r.code, errChar := r.char, errIndex := r.index }

/-- The end of a completion step: BUSY <- 0, DONE <- 1, LATCH <- empty (30_encoding.md R86). -/
def complete (s : State) : State := { s with busy := false, done := true, latch := none }

/-- A command's body has ended with this result in this state: record it and complete (00_scope.md R9, 30_encoding.md R86). The
one way an error is taken: there is no trap, no saved state and no return (60_exceptions.md R190, R198, R199). -/
def finish (r : CmdResult) (s : State) : Host.Outcome State Fault Refusal := .next (complete (recordResult r s))

/-- RESULT <- {VALID, VALUE} (10_state.md R41). -/
def setResult (valid : Bool) (value : Byte) (s : State) : State := { s with resValid := valid, resValue := value }

/-! ## Issue -/

/-- A rejected command word: BADCMD <- 1, DONE <- 1 and nothing else (30_encoding.md R84). -/
def reject (s : State) : State := { s with badcmd := true, done := true }

/-- Acceptance: LATCH <- v, BUSY <- 1, DONE <- 0, BADCMD <- 0, and nothing else (30_encoding.md R85). -/
def latchCommand (v : Word) (s : State) : State :=
  { s with latch := some v, busy := true, done := false, badcmd := false }

/-- The accepted command's LATENCY in host turns: the launch state's next one, else a free value (00_scope.md R6, R13). Log 3. -/
def drawLatency (e : Env) : Env :=
  match e.latencies with
  | l :: ls => { e with turns := l, latencies := ls }
  | [] => { e with turns := Config.latency e.draws, draws := e.draws + 1 }

/-- Issue(v) for a word that decodes to a command (30_encoding.md R85). -/
def accept (v : Word) (s : State) : State := { latchCommand v s with env := drawLatency s.env }

/-- Issue(v): reject a reserved word, accept any other (30_encoding.md R84, R85; 60_exceptions.md R195). -/
def issue (v : Word) (s : State) : State :=
  match decode v with
  | .instr _ => accept v s
  | .reserved _ => reject s

/-! ## Read set and write set -/

/-- RS of an accepted command, from the register values (20_memory.md R67). -/
def readRegion (i : Instr) (s : State) : Region :=
  match i with
  | .encL | .encU => if encLengthOk s.srcLen s.dstLen then ⟨s.srcAddr, s.srcLen.toNat⟩ else Region.empty
  | .dec => if !isOddLength s.srcLen && decLengthOk s.srcLen s.dstLen then ⟨s.srcAddr, s.srcLen.toNat⟩ else Region.empty
  | .inext => if !s.pend && s.iterRem != 0 then ⟨s.iterAddr, 1⟩ else Region.empty
  | .iloadL | .iloadU | .tblrdEL _ | .tblrdEU _ | .tblrdD _ => Region.empty

/-- WS of an accepted command, from the register values (20_memory.md R67). -/
def writeRegion (i : Instr) (s : State) : Region :=
  match i with
  | .encL | .encU => if encLengthOk s.srcLen s.dstLen then ⟨s.dstAddr, s.dstLen.toNat⟩ else Region.empty
  | .dec => if !isOddLength s.srcLen && decLengthOk s.srcLen s.dstLen then ⟨s.dstAddr, s.dstLen.toNat⟩ else Region.empty
  | .inext | .iloadL | .iloadU | .tblrdEL _ | .tblrdEU _ | .tblrdD _ => Region.empty

/-- The command in LATCH while BUSY = 1 (10_state.md R48). -/
def running (s : State) : Option Instr :=
  if s.busy then s.latch.bind (fun v => (decode v).instr?) else none

/-- The address is in WS of the running command (20_memory.md R70). -/
def inRunningWriteSet (s : State) (a : Addr) : Bool :=
  match running s with
  | some i => (writeRegion i s).contains a
  | none => false

/-- The address is in RS ∪ WS of the running command (20_memory.md R70). -/
def inRunningSets (s : State) (a : Addr) : Bool :=
  match running s with
  | some i => (readRegion i s).contains a || (writeRegion i s).contains a
  | none => false

end Sys2Proof.Machine
end

