-- ==== Sys2Proof/Machine/Bus.lean ====
section
/-! DEFINITION. Machine/Bus.lean: the register bus (30_encoding.md R80–R82) and the reset input (70_reset_and_hazards.md R220,
R221, R225). -/

namespace Sys2Proof.Machine

/-- The window offset of a bus address, for a platform that maps the window at `regBase`; `none` outside the window
(30_encoding.md R80). REG_BASE is open (00_scope.md R6), so it is an argument. Log 6. -/
def windowOffset (regBase busAddr : Nat) : Option (BitVec 6) :=
  if regBase ≤ busAddr ∧ busAddr < regBase + 4 * Config.nslot then some (BitVec.ofNat 6 (busAddr - regBase)) else none

/-- The slot an offset selects: off[5:2]; off[1:0] is ignored (30_encoding.md R80). -/
def slotOf (off : BitVec 6) : BitVec 4 := off.extractLsb' 2 4

/-- A register's window offset (10_state.md R28). -/
inductive Reg where
  | cmd | status | srcAddr | srcLen | dstAddr | dstLen | errChar | errIndex | result | iterAddr | iterRem | iterState
deriving DecidableEq, Repr

/-- The offset column of the register map (10_state.md R28). -/
def regOffset : Reg → BitVec 6
  | .cmd => 0x00
  | .status => 0x04
  | .srcAddr => 0x08
  | .srcLen => 0x0C
  | .dstAddr => 0x10
  | .dstLen => 0x14
  | .errChar => 0x18
  | .errIndex => 0x1C
  | .result => 0x20
  | .iterAddr => 0x24
  | .iterRem => 0x28
  | .iterState => 0x2C

/-- BusWrite(s, v): dropped while BUSY = 1; CMD issues; the four operand registers take the word; every other slot ignores it
(30_encoding.md R81). -/
def busWrite (slot : BitVec 4) (v : Word) (s : State) : State :=
  if s.busy then s
  else match slot.toNat with
    | 0 => issue v s
    | 2 => { s with srcAddr := v }
    | 3 => { s with srcLen := v }
    | 4 => { s with dstAddr := v }
    | 5 => { s with dstLen := v }
    | _ => s

/-- BusRead(s): the slot's word, or any word while BUSY = 1 and the slot is not STATUS (30_encoding.md R82, 10_state.md R45). -/
def busReadWord (slot : BitVec 4) (s : State) : Word :=
  if s.busy && slot != 1 then Config.busyReadWord s.env.draws else slotWord slot s

/-- The free values a bus read takes: one for a draw (10_state.md R45). No register changes (30_encoding.md R82). -/
def busReadDraws (slot : BitVec 4) (s : State) : State :=
  if s.busy && slot != 1 then { s with env.draws := s.env.draws + 1 } else s

/-- The bytes `k … 0` of an abandoned write set that starts at `base`, each replaced by its free value
(70_reset_and_hazards.md R225). -/
def abandonBytes (draw : Nat) (base : Addr) : (k : Nat) → Memory → Memory
  | 0, m => m
  | k + 1, m => writeByte (abandonBytes draw base k m) (byteAddr base k) (Config.abandonedByte draw (byteAddr base k))

/-- What reset does to the buffer memory: nothing when idle; while a command runs, every byte of its write set becomes a free
value and no other byte changes (20_memory.md R75, 70_reset_and_hazards.md R225). -/
def abandonWriteSet (s : State) : Memory :=
  match running s with
  | some i => abandonBytes s.env.draws (writeRegion i s).base (writeRegion i s).len s.mem
  | none => s.mem

/-- Reset is asserted: every register takes its reset value and LATCH is emptied, over any completion
(70_reset_and_hazards.md R220, R221, R225; 60_exceptions.md R196). The outside world's side stays. -/
def assertReset (s : State) : State :=
  { State.reset with
    mem := abandonWriteSet s
    resetAsserted := true
    env := { s.env with draws := s.env.draws + 1 } }

/-- Reset is released: the block accepts bus accesses at once (70_reset_and_hazards.md R220). -/
def releaseReset (s : State) : State := { s with resetAsserted := false }

end Sys2Proof.Machine
end

