-- ==== Sys2Proof/Machine/HostSide.lean ====
section
/-! DEFINITION. Machine/HostSide.lean: one turn of the outside world: bus and memory accesses, `poll`, the ENCODE_ITER loop
and the reset input (00_scope.md R11, R12; 20_memory.md R68–R70; 30_encoding.md R95, R96; 42_iterator.md R165). -/

namespace Sys2Proof.Machine

/-- Actions go in front of the pending ones (a host-side loop goes on). DESIGN CHOICE, log 10: the reset input's edges stand in the
same list, so none falls before these actions have been taken. -/
def pushTodo (acts : List HostAction) (s : State) : State := { s with env.todo := acts ++ s.env.todo }

/-- The host observes something. -/
def observe (o : Observation) (s : State) : State := { s with env.seen := o :: s.env.seen }

/-- A bus write by the host: "accepts no bus access" while reset is asserted, so it is then dropped
(70_reset_and_hazards.md R220, log 5), else BusWrite (30_encoding.md R81). -/
def hostBusWrite (off : BitVec 6) (v : Word) (s : State) : State :=
  if s.resetAsserted then s else busWrite (slotOf off) v s

/-- The word a bus read returns to the host; none while reset is asserted (70_reset_and_hazards.md R220, log 5). -/
def readValue (off : BitVec 6) (s : State) : Option Word :=
  if s.resetAsserted then none else some (busReadWord (slotOf off) s)

/-- A bus read by the host: it observes the value; no register changes (30_encoding.md R82). -/
def hostBusRead (off : BitVec 6) (s : State) : State :=
  observe (.reg off (readValue off s)) (if s.resetAsserted then s else busReadDraws (slotOf off) s)

/-- The host read a STATUS word with BUSY = 0 (30_encoding.md R96). -/
def readsIdle (s : State) : Bool :=
  match readValue (regOffset .status) s with
  | some w => !w.getLsbD 0
  | none => false

/-- One round of `poll`: read STATUS, and go round again unless BUSY = 0 was read (30_encoding.md R96). DESIGN CHOICE, log 10: the
next round stands in front of every pending action, the reset input's too, so reset neither rises nor falls while a poll goes
round, and a poll reached while reset is asserted goes round for ever. -/
def hostPoll (s : State) : State :=
  if readsIdle s then hostBusRead (regOffset .status) s
  else pushTodo [.poll] (hostBusRead (regOffset .status) s)

/-- A host write of one byte; not admitted in RS ∪ WS of a running command (20_memory.md R70). -/
def hostMemWrite (a : Addr) (b : Byte) (s : State) : Host.Outcome State Fault Refusal :=
  if inRunningSets s a then .refused (.hostWritesBusySet a) else .next { s with mem := writeByte s.mem a b }

/-- A host read of one byte; not admitted in WS of a running command (20_memory.md R70). -/
def hostMemRead (a : Addr) (s : State) : Host.Outcome State Fault Refusal :=
  if inRunningWriteSet s a then .refused (.hostReadsWriteSet a)
  else .next (observe (.byte a (readByte s.mem a)) s)

/-- ENCODE_ITER's `loop: INEXT`, then `poll` and `rd RESULT` (42_iterator.md R165). -/
def hostIterLoop (dst : Addr) (s : State) : State :=
  pushTodo [.poll, .iterRead dst] (hostBusWrite (regOffset .cmd) (encode .inext) s)

/-- ENCODE_ITER's `rd RESULT` and branch: v[8] = 0 ends the loop, else `mwr dst + k, v[7:0]` and loop with k + 1
(42_iterator.md R165); a read that reset turns away is made again (log 5), in front of the pending release (DESIGN CHOICE,
log 10). -/
def hostIterRead (dst : Addr) (s : State) : State :=
  match readValue (regOffset .result) s with
  | some v =>
    if v.getLsbD 8 then
      pushTodo [.memWrite dst (v.extractLsb' 0 8), .iterLoop (dst + 1)] (hostBusRead (regOffset .result) s)
    else hostBusRead (regOffset .result) s
  | none => pushTodo [.iterRead dst] (hostBusRead (regOffset .result) s)

/-- One action of the outside world. -/
def hostAct (act : HostAction) (s : State) : Host.Outcome State Fault Refusal :=
  match act with
  | .busWrite off v => .next (hostBusWrite off v s)
  | .busRead off => .next (hostBusRead off s)
  | .memWrite a b => hostMemWrite a b s
  | .memRead a => hostMemRead a s
  | .poll => .next (hostPoll s)
  | .iterLoop dst => .next (hostIterLoop dst s)
  | .iterRead dst => .next (hostIterRead dst s)
  | .resetAssert => .next (assertReset s)
  | .resetRelease => .next (releaseReset s)

/-- One turn of the outside world: its next action, or nothing ("Between commands it is idle … and keeps all its state",
60_exceptions.md R207). -/
def hostTurn (s : State) : Host.Outcome State Fault Refusal :=
  match s.env.todo with
  | [] => .next s
  | act :: rest => hostAct act { s with env.todo := rest }

end Sys2Proof.Machine
end

