-- ==== Sys2Proof/Machine/Assembler.lean ====
section
/-! DEFINITION. Machine/Assembler.lean: the lines of a host program and the pseudo-instructions, each expanded to host actions
(30_encoding.md R95–R98, 41_owned_buffer.md R140–R147, 42_iterator.md R165). "A model needs no separate semantics for them: it
runs the expansion" (R147). -/

namespace Sys2Proof.Machine

/-- `wr REG, imm32` (30_encoding.md R95). -/
def wr (r : Reg) (v : Word) : HostAction := .busWrite (regOffset r) v

/-- `rd REG` (30_encoding.md R95). -/
def rd (r : Reg) : HostAction := .busRead (regOffset r)

/-- `MNEMONIC` or `MNEMONIC idx`: `wr CMD, word` (30_encoding.md R95, R97). -/
def command (i : Instr) : HostAction := wr .cmd (encode i)

/-- `mwr addr, b0, b1, …`: byte k goes to addr + k (30_encoding.md R95). -/
def mwr (addr : Addr) : List Byte → List HostAction
  | [] => []
  | b :: bs => .memWrite addr b :: mwr (addr + 1) bs

/-- The ASCII codes of a text, with no terminator (30_encoding.md R95, G5). -/
def asciiBytes (text : String) : List Byte := text.toList.map fun c => BitVec.ofNat 8 c.toNat

/-- `mrd addr, n`: n bytes from addr (30_encoding.md R95). -/
def mrd (addr : Addr) (n : Nat) : List HostAction := (List.range n).map fun k => .memRead (byteAddr addr k)

/-- The four operand writes, in the order of every expansion of 41_owned_buffer.md. -/
def wrOperands (src n dst m : Word) : List HostAction := [wr .srcAddr src, wr .srcLen n, wr .dstAddr dst, wr .dstLen m]

/-- The expansion of `ENCODE`, for the given ENC command; refused when n ≥ 2^31 (41_owned_buffer.md R141). -/
def encodeWith (i : Instr) (src : Addr) (n : Nat) (dst : Addr) : Option (List HostAction) :=
  if n < 2 ^ 31 then
    some (wrOperands src (BitVec.ofNat 32 n) dst (BitVec.ofNat 32 (2 * n)) ++ [command i, .poll])
  else none

/-- `ENCODE src, n, dst` (41_owned_buffer.md R141). -/
def pseudoEncode (src : Addr) (n : Nat) (dst : Addr) : Option (List HostAction) := encodeWith .encL src n dst

/-- `ENCODE_UPPER src, n, dst` (41_owned_buffer.md R142). -/
def pseudoEncodeUpper (src : Addr) (n : Nat) (dst : Addr) : Option (List HostAction) := encodeWith .encU src n dst

/-- The expansion of `ENCODE_APPEND`, with the host's new length len + 2n; refused when n ≥ 2^31 or len + 2n ≥ 2^32
(41_owned_buffer.md R143). -/
def appendWith (i : Instr) (src : Addr) (n : Nat) (base : Addr) (len : Nat) : Option (List HostAction × Nat) :=
  if len + 2 * n < 2 ^ 32 then
    (encodeWith i src n (byteAddr base len)).map fun acts => (acts, len + 2 * n)
  else none

/-- `ENCODE_APPEND src, n, base, len` (41_owned_buffer.md R143). -/
def pseudoEncodeAppend (src : Addr) (n : Nat) (base : Addr) (len : Nat) : Option (List HostAction × Nat) :=
  appendWith .encL src n base len

/-- `ENCODE_APPEND_UPPER src, n, base, len` (41_owned_buffer.md R144). -/
def pseudoEncodeAppendUpper (src : Addr) (n : Nat) (base : Addr) (len : Nat) : Option (List HostAction × Nat) :=
  appendWith .encU src n base len

/-- `DECODE_N src, n, dst, N` (41_owned_buffer.md R146). -/
def pseudoDecodeN (src : Addr) (n : Word) (dst : Addr) (capacity : Word) : List HostAction :=
  wrOperands src n dst capacity ++ [command .dec, .poll, rd .status, rd .errChar, rd .errIndex]

/-- `DECODE src, n, dst`: DST_LEN = n >> 1 (41_owned_buffer.md R145). -/
def pseudoDecode (src : Addr) (n : Word) (dst : Addr) : List HostAction := pseudoDecodeN src n dst (n >>> 1)

/-- `ENCODE_ITER.L` (`upper` false) and `ENCODE_ITER.U` (true), `src, n, dst` (42_iterator.md R165). -/
def pseudoEncodeIter (upper : Bool) (src : Addr) (n : Word) (dst : Addr) : List HostAction :=
  [wr .srcAddr src, wr .srcLen n, command (if upper then .iloadU else .iloadL), .poll, .iterLoop dst]

/-- A line of a HEXCODEC program (30_encoding.md R95, R98). Labels and other control flow are "the host's own" (R99). -/
inductive AsmLine where
  | write (r : Reg) (v : Word)
  | read (r : Reg)
  | cmd (i : Instr)
  | memWrite (addr : Addr) (bytes : List Byte)
  | memText (addr : Addr) (text : String)
  | memRead (addr : Addr) (n : Nat)
  | poll
  | encode (upper : Bool) (src : Addr) (n : Nat) (dst : Addr)
  | encodeAppend (upper : Bool) (src : Addr) (n : Nat) (base : Addr) (len : Nat)
  | decode (src : Addr) (n : Word) (dst : Addr)
  | decodeN (src : Addr) (n : Word) (dst : Addr) (capacity : Word)
  | encodeIter (upper : Bool) (src : Addr) (n : Word) (dst : Addr)
deriving DecidableEq, Repr

/-- The host actions of a line, or none where the assembler refuses it: an ill-formed command has no word (30_encoding.md
R89, R97), a character that is not ASCII has no ASCII code (R95), and R141 and R143 name the lengths it refuses. -/
def expandLine : AsmLine → Option (List HostAction)
  | .write r v => some [wr r v]
  | .read r => some [rd r]
  | .cmd i => if i.wellFormed then some [command i] else none
  | .memWrite a bs => some (mwr a bs)
  | .memText a t => if t.toList.all (fun c => decide (c.toNat < 128)) then some (mwr a (asciiBytes t)) else none
  | .memRead a n => some (mrd a n)
  | .poll => some [.poll]
  | .encode upper src n dst => if upper then pseudoEncodeUpper src n dst else pseudoEncode src n dst
  | .encodeAppend upper src n base len =>
    (if upper then pseudoEncodeAppendUpper src n base len else pseudoEncodeAppend src n base len).map Prod.fst
  | .decode src n dst => some (pseudoDecode src n dst)
  | .decodeN src n dst capacity => some (pseudoDecodeN src n dst capacity)
  | .encodeIter upper src n dst => some (pseudoEncodeIter upper src n dst)

/-- The host actions of a program, in order; none when a line is refused. -/
def assemble : List AsmLine → Option (List HostAction)
  | [] => some []
  | l :: ls => (expandLine l).bind fun acts => (assemble ls).map fun rest => acts ++ rest

end Sys2Proof.Machine
end

