-- ==== Sys2Proof/Machine/Iterator.lean ====
section
/-! DEFINITION. Machine/Iterator.lean: ILOAD.L, ILOAD.U and INEXT (42_iterator.md). -/

namespace Sys2Proof.Machine

/-- ILOAD(c): a fresh iteration over the source region; RESULT <- 0; no memory access (42_iterator.md R161). -/
def loadIterator (upper : Bool) (s : State) : Host.Outcome State Fault Refusal :=
  finish .ok (setResult false 0
    { s with iterAddr := s.srcAddr, iterRem := s.srcLen, pend := false, pchar := 0, icase := upper })

/-- ILOAD.L (42_iterator.md R161). -/
def execIloadL (s : State) : Host.Outcome State Fault Refusal := loadIterator false s

/-- ILOAD.U (42_iterator.md R162). -/
def execIloadU (s : State) : Host.Outcome State Fault Refusal := loadIterator true s

/-- INEXT's first case: emit the held character; no memory access (42_iterator.md R163). -/
def emitPending (s : State) : State := setResult true s.pchar { s with pend := false, pchar := 0 }

/-- INEXT's second case: read the byte at the cursor as memory is now, emit its high character, hold its low one and move the
cursor, modulo 2^32 (42_iterator.md R163, R167). -/
def emitHigh (s : State) : State :=
  let b := readByte s.mem s.iterAddr
  let rom := romOfCase s.icase
  setResult true (rom (hiNibble b))
    { s with pchar := rom (loNibble b), pend := true, iterAddr := s.iterAddr + 1, iterRem := s.iterRem - 1 }

/-- INEXT: the held character, else the next byte's high character, else VALID = 0 (42_iterator.md R160, R163). -/
def execInext (s : State) : Host.Outcome State Fault Refusal :=
  if s.pend then finish .ok (emitPending s)
  else if s.iterRem ≠ 0 then finish .ok (emitHigh s)
  else finish .ok (setResult false 0 s)

end Sys2Proof.Machine
end

