-- ==== Sys2Proof/Machine/SliceCodec.lean ====
section
/-! DEFINITION. Machine/SliceCodec.lean: ENC.L, ENC.U and DEC (40_slice_codec.md). -/

namespace Sys2Proof.Machine

/-- The loop of ENC for the `k` source bytes from index `i`: read byte i, write the high nibble's character, then the low
nibble's, and only then go on (40_slice_codec.md R111; order: 20_memory.md R64, R66). -/
def encLoop (rom : Nibble → Byte) (src dst : Addr) : (k i : Nat) → Memory → Memory
  | 0, _, m => m
  | k + 1, i, m =>
    let b := readByte m (byteAddr src i)
    let m₁ := writeByte m (byteAddr dst (2 * i)) (rom (hiNibble b))
    let m₂ := writeByte m₁ (byteAddr dst (2 * i + 1)) (rom (loNibble b))
    encLoop rom src dst k (i + 1) m₂

/-- ENC(rom): the length check before any memory access, then the loop (40_slice_codec.md R111, R114). -/
def encodeSlice (rom : Nibble → Byte) (s : State) : Host.Outcome State Fault Refusal :=
  if encLengthOk s.srcLen s.dstLen then
    finish .ok { s with mem := encLoop rom s.srcAddr s.dstAddr s.srcLen.toNat 0 s.mem }
  else finish .invalidStringLength s

/-- ENC.L (40_slice_codec.md R111). -/
def execEncL (s : State) : Host.Outcome State Fault Refusal := encodeSlice encLoRom s

/-- ENC.U (40_slice_codec.md R112). -/
def execEncU (s : State) : Host.Outcome State Fault Refusal := encodeSlice encUpRom s

/-- The loop of DEC for the `k` pairs from pair `i`: read both characters, check the first, then the second, and write only
once both are valid; stop at the first `raise` (40_slice_codec.md R116, R120). -/
def decLoop (src dst : Addr) : (k i : Nat) → Memory → Memory × CmdResult
  | 0, _, m => (m, .ok)
  | k + 1, i, m =>
    let c0 := readByte m (byteAddr src (2 * i))
    let c1 := readByte m (byteAddr src (2 * i + 1))
    if !valid c0 then (m, .invalidHexCharacter c0 (BitVec.ofNat 32 (2 * i)))
    else if !valid c1 then (m, .invalidHexCharacter c1 (BitVec.ofNat 32 (2 * i + 1)))
    else decLoop src dst k (i + 1) (writeByte m (byteAddr dst i) (joinNibbles (nib c0) (nib c1)))

/-- DEC: parity, then the length, both before any memory access, then the pairs (40_slice_codec.md R116, R117). -/
def execDec (s : State) : Host.Outcome State Fault Refusal :=
  if isOddLength s.srcLen then finish .oddLength s
  else if decLengthOk s.srcLen s.dstLen then
    let r := decLoop s.srcAddr s.dstAddr s.dstLen.toNat 0 s.mem
    finish r.2 { s with mem := r.1 }
  else finish .invalidStringLength s

end Sys2Proof.Machine
end

