-- ==== Sys2Proof/Machine/TableRead.lean ====
section
/-! DEFINITION. Machine/TableRead.lean: TBLRD.EL, TBLRD.EU and TBLRD.D (43_table_read.md). -/

namespace Sys2Proof.Machine

/-- RESULT <- {VALID = 1, VALUE = entry}; ok() (43_table_read.md R180). -/
def readEntry (entry : Byte) (s : State) : Host.Outcome State Fault Refusal := finish .ok (setResult true entry s)

/-- TBLRD.EL: ENC_LO_ROM[IDX[3:0]] (43_table_read.md R181, 30_encoding.md R89). -/
def execTblrdEL (idx : Byte) (s : State) : Host.Outcome State Fault Refusal := readEntry (encLoRom (loNibble idx)) s

/-- TBLRD.EU: ENC_UP_ROM[IDX[3:0]] (43_table_read.md R182, 30_encoding.md R89). -/
def execTblrdEU (idx : Byte) (s : State) : Host.Outcome State Fault Refusal := readEntry (encUpRom (loNibble idx)) s

/-- TBLRD.D: DEC_ROM[IDX] (43_table_read.md R183, 30_encoding.md R89). -/
def execTblrdD (idx : Byte) (s : State) : Host.Outcome State Fault Refusal := readEntry (decRom idx) s

end Sys2Proof.Machine
end

