-- ==== Sys2Proof/Machine/Dispatch.lean ====
section
/-! DEFINITION. Machine/Dispatch.lean: one arm per command. `exec i s` is ENGINE's completion of command i in state s: its body and
the end of the step (30_encoding.md R86). -/

namespace Sys2Proof.Machine

def exec (i : Instr) (s : State) : Host.Outcome State Fault Refusal :=
  match i with
  | .encL => Sys2Proof.Machine.execEncL s
  | .encU => Sys2Proof.Machine.execEncU s
  | .dec => Sys2Proof.Machine.execDec s
  | .iloadL => Sys2Proof.Machine.execIloadL s
  | .iloadU => Sys2Proof.Machine.execIloadU s
  | .inext => Sys2Proof.Machine.execInext s
  | .tblrdEL idx => Sys2Proof.Machine.execTblrdEL idx s
  | .tblrdEU idx => Sys2Proof.Machine.execTblrdEU idx s
  | .tblrdD idx => Sys2Proof.Machine.execTblrdD idx s

end Sys2Proof.Machine
end

