-- ==== Sys2Proof/Machine/Step.lean ====
section
/-! DEFINITION. Machine/Step.lean: one step of the machine (00_scope.md R11–R13): ENGINE's completion step, or one turn of the
outside world. -/

namespace Sys2Proof.Machine

/-- Complete(): decode the latched word and run it (30_encoding.md R86). The two faults are states no run reaches (log 7). -/
def engineTurn (s : State) : Host.Outcome State Fault Refusal :=
  match s.latch with
  | none => .fault .latchEmpty
  | some v =>
    match decode v with
    | .instr i => exec i s
    | .reserved _ => .fault .latchReserved

/-- One step. While BUSY = 1 the host takes its remaining turns and then ENGINE completes (00_scope.md R13,
70_reset_and_hazards.md R234, log 3); while BUSY = 0 the engine does nothing (20_memory.md R69) and the host moves. -/
def step (s : State) : Host.Outcome State Fault Refusal :=
  if s.busy then
    if s.env.turns = 0 then engineTurn s
    else hostTurn { s with env.turns := s.env.turns - 1 }
  else hostTurn s

/-- The state in which the next step runs the instruction of `nbits` bits: it is accepted (30_encoding.md R85) and it is
ENGINE's turn. A reserved word cannot be accepted, so the next step is the CMD write that rejects it (R84). HEXCODEC fetches
nothing from memory (10_state.md R47): the latch is where its next command stands. Log 9. -/
def State.withFetchWord (s : State) (nbits w : Nat) : State :=
  let v := BitVec.ofNat 32 (w % 2 ^ nbits)
  match decode v with
  | .instr _ => { latchCommand v s with resetAsserted := false, env.turns := 0 }
  | .reserved _ =>
    { s with busy := false, latch := none, resetAsserted := false, env.todo := wr .cmd v :: s.env.todo }

end Sys2Proof.Machine
end

