-- ==== Sys2Proof/Laws/State.lean ====
section
/-! SUPPORT. Laws/State.lean: one lemma per field for each shared state update, so that no later proof unfolds a record update. -/

namespace Sys2Proof.Machine

variable (s : State)

/-! ## recordResult -/

@[simp] theorem recordResult_mem (r : CmdResult) : (recordResult r s).mem = s.mem := rfl
@[simp] theorem recordResult_srcAddr (r : CmdResult) : (recordResult r s).srcAddr = s.srcAddr := rfl
@[simp] theorem recordResult_srcLen (r : CmdResult) : (recordResult r s).srcLen = s.srcLen := rfl
@[simp] theorem recordResult_dstAddr (r : CmdResult) : (recordResult r s).dstAddr = s.dstAddr := rfl
@[simp] theorem recordResult_dstLen (r : CmdResult) : (recordResult r s).dstLen = s.dstLen := rfl
@[simp] theorem recordResult_busy (r : CmdResult) : (recordResult r s).busy = s.busy := rfl
@[simp] theorem recordResult_done (r : CmdResult) : (recordResult r s).done = s.done := rfl
@[simp] theorem recordResult_badcmd (r : CmdResult) : (recordResult r s).badcmd = s.badcmd := rfl
@[simp] theorem recordResult_err (r : CmdResult) : (recordResult r s).err = r.code := rfl
@[simp] theorem recordResult_errChar (r : CmdResult) : (recordResult r s).errChar = r.char := rfl
@[simp] theorem recordResult_errIndex (r : CmdResult) : (recordResult r s).errIndex = r.index := rfl
@[simp] theorem recordResult_resValid (r : CmdResult) : (recordResult r s).resValid = s.resValid := rfl
@[simp] theorem recordResult_resValue (r : CmdResult) : (recordResult r s).resValue = s.resValue := rfl
@[simp] theorem recordResult_iterAddr (r : CmdResult) : (recordResult r s).iterAddr = s.iterAddr := rfl
@[simp] theorem recordResult_iterRem (r : CmdResult) : (recordResult r s).iterRem = s.iterRem := rfl
@[simp] theorem recordResult_pend (r : CmdResult) : (recordResult r s).pend = s.pend := rfl
@[simp] theorem recordResult_icase (r : CmdResult) : (recordResult r s).icase = s.icase := rfl
@[simp] theorem recordResult_pchar (r : CmdResult) : (recordResult r s).pchar = s.pchar := rfl
@[simp] theorem recordResult_latch (r : CmdResult) : (recordResult r s).latch = s.latch := rfl
@[simp] theorem recordResult_resetAsserted (r : CmdResult) : (recordResult r s).resetAsserted = s.resetAsserted := rfl
@[simp] theorem recordResult_env (r : CmdResult) : (recordResult r s).env = s.env := rfl

/-! ## complete -/

@[simp] theorem complete_mem : (complete s).mem = s.mem := rfl
@[simp] theorem complete_srcAddr : (complete s).srcAddr = s.srcAddr := rfl
@[simp] theorem complete_srcLen : (complete s).srcLen = s.srcLen := rfl
@[simp] theorem complete_dstAddr : (complete s).dstAddr = s.dstAddr := rfl
@[simp] theorem complete_dstLen : (complete s).dstLen = s.dstLen := rfl
@[simp] theorem complete_busy : (complete s).busy = false := rfl
@[simp] theorem complete_done : (complete s).done = true := rfl
@[simp] theorem complete_badcmd : (complete s).badcmd = s.badcmd := rfl
@[simp] theorem complete_err : (complete s).err = s.err := rfl
@[simp] theorem complete_errChar : (complete s).errChar = s.errChar := rfl
@[simp] theorem complete_errIndex : (complete s).errIndex = s.errIndex := rfl
@[simp] theorem complete_resValid : (complete s).resValid = s.resValid := rfl
@[simp] theorem complete_resValue : (complete s).resValue = s.resValue := rfl
@[simp] theorem complete_iterAddr : (complete s).iterAddr = s.iterAddr := rfl
@[simp] theorem complete_iterRem : (complete s).iterRem = s.iterRem := rfl
@[simp] theorem complete_pend : (complete s).pend = s.pend := rfl
@[simp] theorem complete_icase : (complete s).icase = s.icase := rfl
@[simp] theorem complete_pchar : (complete s).pchar = s.pchar := rfl
@[simp] theorem complete_latch : (complete s).latch = none := rfl
@[simp] theorem complete_resetAsserted : (complete s).resetAsserted = s.resetAsserted := rfl
@[simp] theorem complete_env : (complete s).env = s.env := rfl

/-! ## setResult -/

@[simp] theorem setResult_mem (b : Bool) (v : Byte) : (setResult b v s).mem = s.mem := rfl
@[simp] theorem setResult_srcAddr (b : Bool) (v : Byte) : (setResult b v s).srcAddr = s.srcAddr := rfl
@[simp] theorem setResult_srcLen (b : Bool) (v : Byte) : (setResult b v s).srcLen = s.srcLen := rfl
@[simp] theorem setResult_dstAddr (b : Bool) (v : Byte) : (setResult b v s).dstAddr = s.dstAddr := rfl
@[simp] theorem setResult_dstLen (b : Bool) (v : Byte) : (setResult b v s).dstLen = s.dstLen := rfl
@[simp] theorem setResult_busy (b : Bool) (v : Byte) : (setResult b v s).busy = s.busy := rfl
@[simp] theorem setResult_done (b : Bool) (v : Byte) : (setResult b v s).done = s.done := rfl
@[simp] theorem setResult_badcmd (b : Bool) (v : Byte) : (setResult b v s).badcmd = s.badcmd := rfl
@[simp] theorem setResult_err (b : Bool) (v : Byte) : (setResult b v s).err = s.err := rfl
@[simp] theorem setResult_errChar (b : Bool) (v : Byte) : (setResult b v s).errChar = s.errChar := rfl
@[simp] theorem setResult_errIndex (b : Bool) (v : Byte) : (setResult b v s).errIndex = s.errIndex := rfl
@[simp] theorem setResult_resValid (b : Bool) (v : Byte) : (setResult b v s).resValid = b := rfl
@[simp] theorem setResult_resValue (b : Bool) (v : Byte) : (setResult b v s).resValue = v := rfl
@[simp] theorem setResult_iterAddr (b : Bool) (v : Byte) : (setResult b v s).iterAddr = s.iterAddr := rfl
@[simp] theorem setResult_iterRem (b : Bool) (v : Byte) : (setResult b v s).iterRem = s.iterRem := rfl
@[simp] theorem setResult_pend (b : Bool) (v : Byte) : (setResult b v s).pend = s.pend := rfl
@[simp] theorem setResult_icase (b : Bool) (v : Byte) : (setResult b v s).icase = s.icase := rfl
@[simp] theorem setResult_pchar (b : Bool) (v : Byte) : (setResult b v s).pchar = s.pchar := rfl
@[simp] theorem setResult_latch (b : Bool) (v : Byte) : (setResult b v s).latch = s.latch := rfl
@[simp] theorem setResult_resetAsserted (b : Bool) (v : Byte) : (setResult b v s).resetAsserted = s.resetAsserted := rfl
@[simp] theorem setResult_env (b : Bool) (v : Byte) : (setResult b v s).env = s.env := rfl

/-! ## reject -/

@[simp] theorem reject_mem : (reject s).mem = s.mem := rfl
@[simp] theorem reject_srcAddr : (reject s).srcAddr = s.srcAddr := rfl
@[simp] theorem reject_srcLen : (reject s).srcLen = s.srcLen := rfl
@[simp] theorem reject_dstAddr : (reject s).dstAddr = s.dstAddr := rfl
@[simp] theorem reject_dstLen : (reject s).dstLen = s.dstLen := rfl
@[simp] theorem reject_busy : (reject s).busy = s.busy := rfl
@[simp] theorem reject_done : (reject s).done = true := rfl
@[simp] theorem reject_badcmd : (reject s).badcmd = true := rfl
@[simp] theorem reject_err : (reject s).err = s.err := rfl
@[simp] theorem reject_errChar : (reject s).errChar = s.errChar := rfl
@[simp] theorem reject_errIndex : (reject s).errIndex = s.errIndex := rfl
@[simp] theorem reject_resValid : (reject s).resValid = s.resValid := rfl
@[simp] theorem reject_resValue : (reject s).resValue = s.resValue := rfl
@[simp] theorem reject_iterAddr : (reject s).iterAddr = s.iterAddr := rfl
@[simp] theorem reject_iterRem : (reject s).iterRem = s.iterRem := rfl
@[simp] theorem reject_pend : (reject s).pend = s.pend := rfl
@[simp] theorem reject_icase : (reject s).icase = s.icase := rfl
@[simp] theorem reject_pchar : (reject s).pchar = s.pchar := rfl
@[simp] theorem reject_latch : (reject s).latch = s.latch := rfl
@[simp] theorem reject_resetAsserted : (reject s).resetAsserted = s.resetAsserted := rfl
@[simp] theorem reject_env : (reject s).env = s.env := rfl

/-! ## latchCommand -/

@[simp] theorem latchCommand_mem (v : Word) : (latchCommand v s).mem = s.mem := rfl
@[simp] theorem latchCommand_srcAddr (v : Word) : (latchCommand v s).srcAddr = s.srcAddr := rfl
@[simp] theorem latchCommand_srcLen (v : Word) : (latchCommand v s).srcLen = s.srcLen := rfl
@[simp] theorem latchCommand_dstAddr (v : Word) : (latchCommand v s).dstAddr = s.dstAddr := rfl
@[simp] theorem latchCommand_dstLen (v : Word) : (latchCommand v s).dstLen = s.dstLen := rfl
@[simp] theorem latchCommand_busy (v : Word) : (latchCommand v s).busy = true := rfl
@[simp] theorem latchCommand_done (v : Word) : (latchCommand v s).done = false := rfl
@[simp] theorem latchCommand_badcmd (v : Word) : (latchCommand v s).badcmd = false := rfl
@[simp] theorem latchCommand_err (v : Word) : (latchCommand v s).err = s.err := rfl
@[simp] theorem latchCommand_errChar (v : Word) : (latchCommand v s).errChar = s.errChar := rfl
@[simp] theorem latchCommand_errIndex (v : Word) : (latchCommand v s).errIndex = s.errIndex := rfl
@[simp] theorem latchCommand_resValid (v : Word) : (latchCommand v s).resValid = s.resValid := rfl
@[simp] theorem latchCommand_resValue (v : Word) : (latchCommand v s).resValue = s.resValue := rfl
@[simp] theorem latchCommand_iterAddr (v : Word) : (latchCommand v s).iterAddr = s.iterAddr := rfl
@[simp] theorem latchCommand_iterRem (v : Word) : (latchCommand v s).iterRem = s.iterRem := rfl
@[simp] theorem latchCommand_pend (v : Word) : (latchCommand v s).pend = s.pend := rfl
@[simp] theorem latchCommand_icase (v : Word) : (latchCommand v s).icase = s.icase := rfl
@[simp] theorem latchCommand_pchar (v : Word) : (latchCommand v s).pchar = s.pchar := rfl
@[simp] theorem latchCommand_latch (v : Word) : (latchCommand v s).latch = some v := rfl
@[simp] theorem latchCommand_resetAsserted (v : Word) : (latchCommand v s).resetAsserted = s.resetAsserted := rfl
@[simp] theorem latchCommand_env (v : Word) : (latchCommand v s).env = s.env := rfl

/-! ## pushTodo -/

@[simp] theorem pushTodo_mem (acts : List HostAction) : (pushTodo acts s).mem = s.mem := rfl
@[simp] theorem pushTodo_srcAddr (acts : List HostAction) : (pushTodo acts s).srcAddr = s.srcAddr := rfl
@[simp] theorem pushTodo_srcLen (acts : List HostAction) : (pushTodo acts s).srcLen = s.srcLen := rfl
@[simp] theorem pushTodo_dstAddr (acts : List HostAction) : (pushTodo acts s).dstAddr = s.dstAddr := rfl
@[simp] theorem pushTodo_dstLen (acts : List HostAction) : (pushTodo acts s).dstLen = s.dstLen := rfl
@[simp] theorem pushTodo_busy (acts : List HostAction) : (pushTodo acts s).busy = s.busy := rfl
@[simp] theorem pushTodo_done (acts : List HostAction) : (pushTodo acts s).done = s.done := rfl
@[simp] theorem pushTodo_badcmd (acts : List HostAction) : (pushTodo acts s).badcmd = s.badcmd := rfl
@[simp] theorem pushTodo_err (acts : List HostAction) : (pushTodo acts s).err = s.err := rfl
@[simp] theorem pushTodo_errChar (acts : List HostAction) : (pushTodo acts s).errChar = s.errChar := rfl
@[simp] theorem pushTodo_errIndex (acts : List HostAction) : (pushTodo acts s).errIndex = s.errIndex := rfl
@[simp] theorem pushTodo_resValid (acts : List HostAction) : (pushTodo acts s).resValid = s.resValid := rfl
@[simp] theorem pushTodo_resValue (acts : List HostAction) : (pushTodo acts s).resValue = s.resValue := rfl
@[simp] theorem pushTodo_iterAddr (acts : List HostAction) : (pushTodo acts s).iterAddr = s.iterAddr := rfl
@[simp] theorem pushTodo_iterRem (acts : List HostAction) : (pushTodo acts s).iterRem = s.iterRem := rfl
@[simp] theorem pushTodo_pend (acts : List HostAction) : (pushTodo acts s).pend = s.pend := rfl
@[simp] theorem pushTodo_icase (acts : List HostAction) : (pushTodo acts s).icase = s.icase := rfl
@[simp] theorem pushTodo_pchar (acts : List HostAction) : (pushTodo acts s).pchar = s.pchar := rfl
@[simp] theorem pushTodo_latch (acts : List HostAction) : (pushTodo acts s).latch = s.latch := rfl
@[simp] theorem pushTodo_resetAsserted (acts : List HostAction) : (pushTodo acts s).resetAsserted = s.resetAsserted := rfl
@[simp] theorem pushTodo_env (acts : List HostAction) : (pushTodo acts s).env = { s.env with todo := acts ++ s.env.todo } := rfl

/-! ## observe -/

@[simp] theorem observe_mem (o : Observation) : (observe o s).mem = s.mem := rfl
@[simp] theorem observe_srcAddr (o : Observation) : (observe o s).srcAddr = s.srcAddr := rfl
@[simp] theorem observe_srcLen (o : Observation) : (observe o s).srcLen = s.srcLen := rfl
@[simp] theorem observe_dstAddr (o : Observation) : (observe o s).dstAddr = s.dstAddr := rfl
@[simp] theorem observe_dstLen (o : Observation) : (observe o s).dstLen = s.dstLen := rfl
@[simp] theorem observe_busy (o : Observation) : (observe o s).busy = s.busy := rfl
@[simp] theorem observe_done (o : Observation) : (observe o s).done = s.done := rfl
@[simp] theorem observe_badcmd (o : Observation) : (observe o s).badcmd = s.badcmd := rfl
@[simp] theorem observe_err (o : Observation) : (observe o s).err = s.err := rfl
@[simp] theorem observe_errChar (o : Observation) : (observe o s).errChar = s.errChar := rfl
@[simp] theorem observe_errIndex (o : Observation) : (observe o s).errIndex = s.errIndex := rfl
@[simp] theorem observe_resValid (o : Observation) : (observe o s).resValid = s.resValid := rfl
@[simp] theorem observe_resValue (o : Observation) : (observe o s).resValue = s.resValue := rfl
@[simp] theorem observe_iterAddr (o : Observation) : (observe o s).iterAddr = s.iterAddr := rfl
@[simp] theorem observe_iterRem (o : Observation) : (observe o s).iterRem = s.iterRem := rfl
@[simp] theorem observe_pend (o : Observation) : (observe o s).pend = s.pend := rfl
@[simp] theorem observe_icase (o : Observation) : (observe o s).icase = s.icase := rfl
@[simp] theorem observe_pchar (o : Observation) : (observe o s).pchar = s.pchar := rfl
@[simp] theorem observe_latch (o : Observation) : (observe o s).latch = s.latch := rfl
@[simp] theorem observe_resetAsserted (o : Observation) : (observe o s).resetAsserted = s.resetAsserted := rfl
@[simp] theorem observe_env (o : Observation) : (observe o s).env = { s.env with seen := o :: s.env.seen } := rfl

/-! ## releaseReset -/

@[simp] theorem releaseReset_mem : (releaseReset s).mem = s.mem := rfl
@[simp] theorem releaseReset_srcAddr : (releaseReset s).srcAddr = s.srcAddr := rfl
@[simp] theorem releaseReset_srcLen : (releaseReset s).srcLen = s.srcLen := rfl
@[simp] theorem releaseReset_dstAddr : (releaseReset s).dstAddr = s.dstAddr := rfl
@[simp] theorem releaseReset_dstLen : (releaseReset s).dstLen = s.dstLen := rfl
@[simp] theorem releaseReset_busy : (releaseReset s).busy = s.busy := rfl
@[simp] theorem releaseReset_done : (releaseReset s).done = s.done := rfl
@[simp] theorem releaseReset_badcmd : (releaseReset s).badcmd = s.badcmd := rfl
@[simp] theorem releaseReset_err : (releaseReset s).err = s.err := rfl
@[simp] theorem releaseReset_errChar : (releaseReset s).errChar = s.errChar := rfl
@[simp] theorem releaseReset_errIndex : (releaseReset s).errIndex = s.errIndex := rfl
@[simp] theorem releaseReset_resValid : (releaseReset s).resValid = s.resValid := rfl
@[simp] theorem releaseReset_resValue : (releaseReset s).resValue = s.resValue := rfl
@[simp] theorem releaseReset_iterAddr : (releaseReset s).iterAddr = s.iterAddr := rfl
@[simp] theorem releaseReset_iterRem : (releaseReset s).iterRem = s.iterRem := rfl
@[simp] theorem releaseReset_pend : (releaseReset s).pend = s.pend := rfl
@[simp] theorem releaseReset_icase : (releaseReset s).icase = s.icase := rfl
@[simp] theorem releaseReset_pchar : (releaseReset s).pchar = s.pchar := rfl
@[simp] theorem releaseReset_latch : (releaseReset s).latch = s.latch := rfl
@[simp] theorem releaseReset_resetAsserted : (releaseReset s).resetAsserted = false := rfl
@[simp] theorem releaseReset_env : (releaseReset s).env = s.env := rfl

end Sys2Proof.Machine
end

