-- ==== Sys2Proof/Laws/Memory.lean ====
section
/-! SUPPORT. Laws/Memory.lean: the buffer memory's laws: reading after writing, every operation keeps the canonical form, and
canonical memories that read the same are equal. -/

namespace Sys2Proof.Machine

/-! ## Cells -/

theorem wfFrom_mono {lo lo' : Nat} (h : lo' ≤ lo) {m : Memory} (hm : Memory.wfFrom lo m = true) :
    Memory.wfFrom lo' m = true := by
  cases m with
  | nil => rfl
  | cons c m =>
    obtain ⟨a, b⟩ := c
    simp only [Memory.wfFrom, Bool.and_eq_true, decide_eq_true_eq] at hm ⊢
    exact ⟨⟨⟨by omega, hm.1.1.2⟩, hm.1.2⟩, hm.2⟩

theorem wfFrom_cons {lo a : Nat} {b : Byte} {m : Memory} :
    Memory.wfFrom lo ((a, b) :: m) = true ↔
      lo ≤ a ∧ a < 2 ^ 32 ∧ b ≠ unlistedByte ∧ Memory.wfFrom (a + 1) m = true := by
  simp [Memory.wfFrom, and_assoc]

/-- Below a canonical list's first address everything reads as unlisted. -/
theorem lookupCell_below {lo a : Nat} {m : Memory} (hm : Memory.wfFrom lo m = true) (h : a < lo) :
    lookupCell m a = unlistedByte := by
  induction m generalizing lo with
  | nil => rfl
  | cons c m ih =>
    obtain ⟨k, x⟩ := c
    obtain ⟨hk, -, -, hm⟩ := wfFrom_cons.1 hm
    rw [lookupCell, if_neg (by omega), ih hm (by omega)]

theorem wfFrom_consCell {lo a : Nat} {v : Byte} {m : Memory} (hlo : lo ≤ a) (ha : a < 2 ^ 32)
    (hm : Memory.wfFrom (a + 1) m = true) : Memory.wfFrom lo (consCell a v m) = true := by
  unfold consCell
  split
  · exact wfFrom_mono (by omega) hm
  · exact wfFrom_cons.2 ⟨hlo, ha, ‹_›, hm⟩

theorem wfFrom_putCell {lo a : Nat} {v : Byte} {m : Memory} (hlo : lo ≤ a) (ha : a < 2 ^ 32)
    (hm : Memory.wfFrom lo m = true) : Memory.wfFrom lo (putCell m a v) = true := by
  induction m generalizing lo with
  | nil => exact wfFrom_consCell hlo ha rfl
  | cons c m ih =>
    obtain ⟨k, x⟩ := c
    obtain ⟨hk, hk', hx, hm⟩ := wfFrom_cons.1 hm
    rw [putCell]
    split_ifs with h₁ h₂
    · exact wfFrom_consCell hlo ha (wfFrom_cons.2 ⟨by omega, hk', hx, hm⟩)
    · subst h₂
      exact wfFrom_consCell hlo ha hm
    · exact wfFrom_cons.2 ⟨hk, hk', hx, ih (by omega) hm⟩

theorem lookupCell_consCell {lo a b : Nat} {v : Byte} {m : Memory} (hm : Memory.wfFrom lo m = true) (h : a < lo) :
    lookupCell (consCell a v m) b = if b = a then v else lookupCell m b := by
  unfold consCell
  split_ifs with h₁ h₂ h₂
  · rw [h₂, h₁, lookupCell_below hm h]
  · rfl
  · rw [h₂, lookupCell, if_pos rfl]
  · rw [lookupCell, if_neg h₂]

theorem lookupCell_putCell {lo a b : Nat} {v : Byte} {m : Memory} (hm : Memory.wfFrom lo m = true) :
    lookupCell (putCell m a v) b = if b = a then v else lookupCell m b := by
  induction m generalizing lo with
  | nil => exact lookupCell_consCell (lo := a + 1) rfl (by omega)
  | cons c m ih =>
    obtain ⟨k, x⟩ := c
    obtain ⟨hk, hk', hx, hm⟩ := wfFrom_cons.1 hm
    rw [putCell]
    by_cases h₁ : a < k
    · rw [if_pos h₁]
      exact lookupCell_consCell (lo := k) (wfFrom_cons.2 ⟨le_refl _, hk', hx, hm⟩) h₁
    rw [if_neg h₁]
    by_cases h₂ : a = k
    · subst h₂
      rw [if_pos rfl, lookupCell_consCell hm (by omega), lookupCell]
      split_ifs <;> rfl
    rw [if_neg h₂, lookupCell, lookupCell, ih hm]
    split_ifs <;> first | rfl | omega

/-- Canonical cell lists that read the same everywhere are equal. -/
theorem wfFrom_ext {lo : Nat} {m m' : Memory} (hm : Memory.wfFrom lo m = true) (hm' : Memory.wfFrom lo m' = true)
    (h : ∀ a < 2 ^ 32, lookupCell m a = lookupCell m' a) : m = m' := by
  induction m generalizing lo m' with
  | nil =>
    cases m' with
    | nil => rfl
    | cons c m' =>
      obtain ⟨k, x⟩ := c
      obtain ⟨-, hk, hx, -⟩ := wfFrom_cons.1 hm'
      exact absurd (by simpa [lookupCell] using (h k hk).symm) hx
  | cons c m ih =>
    obtain ⟨k, x⟩ := c
    obtain ⟨hlo, hk, hx, hm⟩ := wfFrom_cons.1 hm
    cases m' with
    | nil => exact absurd (by simpa [lookupCell] using h k hk) hx
    | cons c' m' =>
      obtain ⟨k', x'⟩ := c'
      obtain ⟨hlo', hk', hx', hw'⟩ := wfFrom_cons.1 hm'
      have hkk : k = k' := by
        rcases Nat.lt_trichotomy k k' with hlt | heq | hgt
        · have := h k hk
          rw [lookupCell, if_pos rfl, lookupCell, if_neg (by omega), lookupCell_below hw' (by omega)] at this
          exact absurd this hx
        · exact heq
        · have := h k' hk'
          rw [lookupCell, if_neg (by omega), lookupCell_below hm (by omega), lookupCell, if_pos rfl] at this
          exact absurd this.symm hx'
      subst hkk
      have hxx : x = x' := by simpa [lookupCell] using h k hk
      subst hxx
      have : m = m' := ih hm hw' fun a ha => by
        by_cases hak : a = k
        · rw [lookupCell_below hm (show a < k + 1 by omega), lookupCell_below hw' (show a < k + 1 by omega)]
        · simpa [lookupCell, hak] using h a ha
      rw [this]

/-! ## Bytes -/

theorem wf_writeByte {m : Memory} (hm : Memory.wf m = true) (a : Addr) (v : Byte) :
    Memory.wf (writeByte m a v) = true :=
  wfFrom_putCell (Nat.zero_le _) a.isLt hm

/-- "MemWrite(a, 1, v) sets mem[a] <- v", with no effect on any other address (20_memory.md R61). -/
theorem readByte_writeByte {m : Memory} (hm : Memory.wf m = true) (a b : Addr) (v : Byte) :
    readByte (writeByte m a v) b = if b = a then v else readByte m b := by
  have := lookupCell_putCell (a := a.toNat) (b := b.toNat) (v := v) hm
  simpa [readByte, writeByte, BitVec.toNat_inj] using this

theorem readByte_writeByte_self {m : Memory} (hm : Memory.wf m = true) (a : Addr) (v : Byte) :
    readByte (writeByte m a v) a = v := by
  rw [readByte_writeByte hm, if_pos rfl]

theorem readByte_writeByte_ne {m : Memory} (hm : Memory.wf m = true) {a b : Addr} (v : Byte) (h : b ≠ a) :
    readByte (writeByte m a v) b = readByte m b := by
  rw [readByte_writeByte hm, if_neg h]

/-- Canonical memories are determined by what they read as. -/
theorem memory_eq_of_reads {m m' : Memory} (hm : Memory.wf m = true) (hm' : Memory.wf m' = true)
    (h : ∀ a, readByte m a = readByte m' a) : m = m' :=
  wfFrom_ext hm hm' fun a ha => by
    have := h (BitVec.ofNat 32 a)
    rwa [readByte, readByte, BitVec.toNat_ofNat, Nat.mod_eq_of_lt ha] at this

/-- Writes to different addresses commute. -/
theorem writeByte_comm {m : Memory} (hm : Memory.wf m = true) {a b : Addr} (h : a ≠ b) (u v : Byte) :
    writeByte (writeByte m a u) b v = writeByte (writeByte m b v) a u := by
  refine memory_eq_of_reads (wf_writeByte (wf_writeByte hm _ _) _ _) (wf_writeByte (wf_writeByte hm _ _) _ _) fun x => ?_
  simp only [readByte_writeByte (wf_writeByte hm _ _), readByte_writeByte hm]
  by_cases ha : x = a <;> by_cases hb : x = b <;> simp_all

end Sys2Proof.Machine
end

