-- ==== Sys2Proof/Laws/Regions.lean ====
section
/-! SUPPORT. Laws/Regions.lean: region addresses: distinct below 2^32 and membership as an index (20_memory.md R62, R67). -/

namespace Sys2Proof.Machine

@[simp] theorem byteAddr_zero (base : Addr) : byteAddr base 0 = base := by simp [byteAddr]

theorem byteAddr_succ (base : Addr) (k : Nat) : byteAddr base (k + 1) = byteAddr base k + 1 := by
  simp [byteAddr, BitVec.ofNat_add, BitVec.add_assoc]

theorem byteAddr_add (base : Addr) (j k : Nat) : byteAddr (byteAddr base j) k = byteAddr base (j + k) := by
  simp [byteAddr, BitVec.ofNat_add, BitVec.add_assoc]

theorem byteAddr_inj {base : Addr} {j k : Nat} (hj : j < 2 ^ 32) (hk : k < 2 ^ 32)
    (h : byteAddr base j = byteAddr base k) : j = k := by
  have h' := congrArg BitVec.toNat ((BitVec.add_right_inj _).1 h)
  rwa [BitVec.toNat_ofNat, BitVec.toNat_ofNat, Nat.mod_eq_of_lt hj, Nat.mod_eq_of_lt hk] at h'

/-- An address is in a region exactly when it is the address of one of its bytes. -/
theorem Region.contains_iff {r : Region} (hr : r.len ≤ 2 ^ 32) (a : Addr) :
    r.contains a = true ↔ ∃ k < r.len, a = byteAddr r.base k := by
  simp only [Region.contains, decide_eq_true_eq]
  constructor
  · intro h
    exact ⟨(a - r.base).toNat, h, by rw [byteAddr, BitVec.ofNat_toNat, BitVec.setWidth_eq, BitVec.add_comm, BitVec.sub_add_cancel]⟩
  · rintro ⟨k, hk, rfl⟩
    have : byteAddr r.base k - r.base = BitVec.ofNat 32 k := by
      rw [byteAddr, BitVec.add_comm, BitVec.add_sub_cancel]
    rwa [this, BitVec.toNat_ofNat, Nat.mod_eq_of_lt (by omega)]

@[simp] theorem Region.empty_contains (a : Addr) : Region.empty.contains a = false := by
  simp [Region.contains, Region.empty]

theorem readRegion_len_le (i : Instr) (s : State) : (readRegion i s).len ≤ 2 ^ 32 := by
  have := s.srcLen.isLt
  cases i <;> simp only [readRegion] <;> (try split_ifs) <;> simp [Region.empty] <;> omega

theorem writeRegion_len_le (i : Instr) (s : State) : (writeRegion i s).len ≤ 2 ^ 32 := by
  have := s.dstLen.isLt
  cases i <;> simp only [writeRegion] <;> (try split_ifs) <;> simp [Region.empty] <;> omega

end Sys2Proof.Machine
end

