-- ==== Sys2Proof/Safety.lean ====
section
/-! DEFINITION. Safety.lean: the terms claims use: the machine's invariant (10_state.md R48, R51 and what follows from R84–R86),
what two states have in common, and the spec's byte-map reading of a command's memory effect (10_state.md R51, 20_memory.md R66). -/

namespace Sys2Proof.Machine

/-! ## The invariant -/

/-- Every register of the block is at its reset value (70_reset_and_hazards.md R221); memory, the reset input and the outside
world are free. -/
def atResetValues (s : State) : Prop :=
  s = { State.reset with mem := s.mem, resetAsserted := s.resetAsserted, env := s.env }

/-- What every run from reset keeps. -/
structure Inv (s : State) : Prop where
  /-- "LATCH is non-empty exactly when STATUS.BUSY = 1" (10_state.md R48, R51). -/
  latch_busy : s.latch.isSome = s.busy
  /-- The latch holds an accepted command word (R48, 30_encoding.md R85). -/
  latch_accepted : ∀ v, s.latch = some v → ∃ i, decode v = .instr i
  /-- Acceptance clears DONE and BADCMD, and nothing sets them before completion (30_encoding.md R81, R85). -/
  busy_flags : s.busy = true → s.done = false ∧ s.badcmd = false
  /-- A rejection sets BADCMD and DONE together (30_encoding.md R84). -/
  badcmd_done : s.badcmd = true → s.done = true
  /-- "PCHAR … is 0 whenever PEND = 0" (10_state.md R44, R51). -/
  pchar_idle : s.pend = false → s.pchar = 0
  /-- A pending character is one of the iteration's encode ROM (42_iterator.md R163). -/
  pchar_digit : s.pend = true → ∃ n, s.pchar = romOfCase s.icase n
  /-- "err ≠ 1 -> err_char = 0 ∧ err_index = 0" (10_state.md R51). -/
  err_record : s.err ≠ 1 → s.errChar = 0 ∧ s.errIndex = 0
  /-- ERR_CHAR "may be any value 0x00–0xFF other than a valid hex digit" (10_state.md R39). -/
  err_char : s.err = 1 → valid s.errChar = false
  /-- RESULT is 0 whenever VALID = 0 (42_iterator.md R161, R163). -/
  result_valid : s.resValid = false → s.resValue = 0
  /-- The memory list is canonical (log 1). -/
  mem_wf : Memory.wf s.mem = true
  /-- "While reset is asserted, the block takes the reset state" (70_reset_and_hazards.md R220). -/
  in_reset : s.resetAsserted = true → atResetValues s

/-! ## What two states have in common -/

/-- SRC_ADDR, SRC_LEN, DST_ADDR and DST_LEN are the same. -/
def sameOperands (s t : State) : Prop :=
  t.srcAddr = s.srcAddr ∧ t.srcLen = s.srcLen ∧ t.dstAddr = s.dstAddr ∧ t.dstLen = s.dstLen

/-- ITER_ADDR, ITER_REM and ITER_STATE are the same. -/
def sameIterator (s t : State) : Prop :=
  t.iterAddr = s.iterAddr ∧ t.iterRem = s.iterRem ∧ t.pend = s.pend ∧ t.icase = s.icase ∧ t.pchar = s.pchar

/-- RESULT is the same. -/
def sameResult (s t : State) : Prop := t.resValid = s.resValid ∧ t.resValue = s.resValue

/-- ERR, ERR_CHAR and ERR_INDEX are the same. -/
def sameErrorRecord (s t : State) : Prop := t.err = s.err ∧ t.errChar = s.errChar ∧ t.errIndex = s.errIndex

/-- Every byte of buffer memory reads the same. -/
def sameMemory (s t : State) : Prop := ∀ a, readByte t.mem a = readByte s.mem a

/-- Every byte of buffer memory outside the `n` bytes from `base` reads the same. -/
def sameMemoryOutside (base : Addr) (n : Nat) (s t : State) : Prop :=
  ∀ a, (∀ k < n, a ≠ byteAddr base k) → readByte t.mem a = readByte s.mem a

/-- The two regions share no byte (20_memory.md R62; 40_slice_codec.md R123). -/
def disjointRegions (base₁ : Addr) (n₁ : Nat) (base₂ : Addr) (n₂ : Nat) : Prop :=
  ∀ j < n₁, ∀ k < n₂, byteAddr base₁ j ≠ byteAddr base₂ k

/-! ## Which event a step is -/

/-- The command is ENC.L with ENC_LO_ROM or ENC.U with ENC_UP_ROM (40_slice_codec.md R111, R112). -/
def encodesWith (i : Instr) (rom : Nibble → Byte) : Prop :=
  (i = .encL ∧ rom = encLoRom) ∨ (i = .encU ∧ rom = encUpRom)

/-- The next step is ENGINE's completion of this command. -/
def completes (s : State) (i : Instr) : Prop :=
  s.busy = true ∧ s.env.turns = 0 ∧ ∃ v, s.latch = some v ∧ decode v = .instr i

/-- The next step is a turn of the outside world. -/
def hostMoves (s : State) : Prop := s.busy = false ∨ s.env.turns ≠ 0

/-- The next step is a turn of the outside world that takes this action and leaves `rest` pending. -/
def hostTakes (s : State) (act : HostAction) (rest : List HostAction) : Prop :=
  hostMoves s ∧ s.env.todo = act :: rest

/-- The env after the outside world takes an action and leaves `rest`: one turn is used up while BUSY = 1. -/
def envAfter (s : State) (rest : List HostAction) : Env :=
  { s.env with todo := rest, turns := if s.busy then s.env.turns - 1 else s.env.turns }

/-! ## The spec's byte map -/

/-- The buffer memory as 10_state.md R51 writes it: a total function from addresses to bytes. -/
abbrev ByteMap := Addr → Byte

/-- mem[a] <- v. -/
def ByteMap.set (f : ByteMap) (a : Addr) (v : Byte) : ByteMap := fun x => if x = a then v else f x

/-- One iteration of ENC on the byte map (40_slice_codec.md R111). -/
def encIteration (rom : Nibble → Byte) (src dst : Addr) (f : ByteMap) (i : Nat) : ByteMap :=
  let b := f (byteAddr src i)
  (f.set (byteAddr dst (2 * i)) (rom (hiNibble b))).set (byteAddr dst (2 * i + 1)) (rom (loNibble b))

/-- `for i in 0 .. n-1` of ENC on the byte map (00_scope.md R10, 40_slice_codec.md R111). -/
def encByteMap (rom : Nibble → Byte) (src dst : Addr) (n : Nat) (f : ByteMap) : ByteMap :=
  (List.range n).foldl (encIteration rom src dst) f

/-- One iteration of DEC on the byte map; nothing happens once an iteration has raised (00_scope.md R9, 40_slice_codec.md
R116). -/
def decIteration (src dst : Addr) (p : ByteMap × CmdResult) (i : Nat) : ByteMap × CmdResult :=
  let c0 := p.1 (byteAddr src (2 * i))
  let c1 := p.1 (byteAddr src (2 * i + 1))
  if p.2 ≠ .ok then p
  else if valid c0 = false then (p.1, .invalidHexCharacter c0 (BitVec.ofNat 32 (2 * i)))
  else if valid c1 = false then (p.1, .invalidHexCharacter c1 (BitVec.ofNat 32 (2 * i + 1)))
  else (p.1.set (byteAddr dst i) (joinNibbles (nib c0) (nib c1)), .ok)

/-- `for i in 0 .. m-1` of DEC on the byte map (00_scope.md R10, 40_slice_codec.md R116). -/
def decByteMap (src dst : Addr) (m : Nat) (f : ByteMap) : ByteMap × CmdResult :=
  (List.range m).foldl (decIteration src dst) (f, .ok)

/-- Character k of the encoding of the n bytes a byte map holds from `src`: high nibble first (20_memory.md R64). -/
def encodedChar (rom : Nibble → Byte) (src : Addr) (f : ByteMap) (k : Nat) : Byte :=
  let b := f (byteAddr src (k / 2))
  if k % 2 = 0 then rom (hiNibble b) else rom (loNibble b)

/-- The byte two characters decode to (40_slice_codec.md R119). -/
def decodedByte (src : Addr) (f : ByteMap) (i : Nat) : Byte :=
  joinNibbles (nib (f (byteAddr src (2 * i)))) (nib (f (byteAddr src (2 * i + 1))))

/-- Two characters are the same but for the case of a letter (40_slice_codec.md R125). -/
def sameButCase (c d : Byte) : Prop :=
  c = d ∨ (0x41 ≤ c ∧ c ≤ 0x46 ∧ d = c + 0x20) ∨ (0x61 ≤ c ∧ c ≤ 0x66 ∧ d + 0x20 = c)

/-! ## Iterations -/

/-- The number of characters still to come: 2·ITER_REM + PEND (42_iterator.md R164). -/
def charsToCome (s : State) : Nat := 2 * s.iterRem.toNat + s.pend.toNat

/-- The state after `k` INEXT commands. -/
def afterInexts : Nat → State → Host.Outcome State Fault Refusal
  | 0, s => .next s
  | k + 1, s =>
    match exec .inext s with
    | .next t => afterInexts k t
    | .fault f => .fault f
    | .refused r => .refused r

end Sys2Proof.Machine
end

