-- ==== Sys2Proof/Laws/SliceCodec.lean ====
section
/-! SUPPORT. Laws/SliceCodec.lean: what the loops of ENC and DEC do: they keep memory canonical, they are the spec's byte-map
loops, and they write only their destination bytes (40_slice_codec.md R111, R116). -/

namespace Sys2Proof.Machine

/-- A memory list read as the spec's byte map. -/
theorem readByte_writeByte_eq_set {m : Memory} (hm : Memory.wf m = true) (a : Addr) (v : Byte) :
    readByte (writeByte m a v) = ByteMap.set (readByte m) a v :=
  funext fun b => readByte_writeByte hm a b v

/-! ## ENC -/

theorem wf_encLoop (rom : Nibble → Byte) (src dst : Addr) (k i : Nat) {m : Memory} (hm : Memory.wf m = true) :
    Memory.wf (encLoop rom src dst k i m) = true := by
  induction k generalizing i m with
  | zero => exact hm
  | succ k ih => exact ih _ (wf_writeByte (wf_writeByte hm _ _) _ _)

/-- ENC's loop is the spec's loop on the byte map. -/
theorem readByte_encLoop (rom : Nibble → Byte) (src dst : Addr) (k i : Nat) {m : Memory} (hm : Memory.wf m = true) :
    readByte (encLoop rom src dst k i m) = (List.range' i k).foldl (encIteration rom src dst) (readByte m) := by
  induction k generalizing i m with
  | zero => rfl
  | succ k ih =>
    rw [encLoop, ih _ (wf_writeByte (wf_writeByte hm _ _) _ _), List.range'_succ, List.foldl_cons,
      readByte_writeByte_eq_set (wf_writeByte hm _ _), readByte_writeByte_eq_set hm, encIteration]

/-- ENC's loop changes no byte but the two destination bytes of each of its source bytes. -/
theorem readByte_encLoop_outside (rom : Nibble → Byte) (src dst : Addr) (k i : Nat) {m : Memory}
    (hm : Memory.wf m = true) {a : Addr} (ha : ∀ j, 2 * i ≤ j → j < 2 * (i + k) → a ≠ byteAddr dst j) :
    readByte (encLoop rom src dst k i m) a = readByte m a := by
  induction k generalizing i m with
  | zero => rfl
  | succ k ih =>
    rw [encLoop, ih _ (wf_writeByte (wf_writeByte hm _ _) _ _) fun j h₁ h₂ => ha j (by omega) (by omega),
      readByte_writeByte_ne (wf_writeByte hm _ _) _ (ha _ (by omega) (by omega)),
      readByte_writeByte_ne hm _ (ha _ (by omega) (by omega))]

/-! ## DEC -/

theorem wf_decLoop (src dst : Addr) (k i : Nat) {m : Memory} (hm : Memory.wf m = true) :
    Memory.wf (decLoop src dst k i m).1 = true := by
  induction k generalizing i m with
  | zero => exact hm
  | succ k ih =>
    simp only [decLoop]
    split_ifs
    · exact hm
    · exact hm
    · exact ih _ (wf_writeByte hm _ _)

/-- DEC ends with `ok()` or `InvalidHexCharacter` of a byte that is no hex digit. -/
theorem decLoop_result (src dst : Addr) (k i : Nat) (m : Memory) :
    (decLoop src dst k i m).2 = .ok ∨
      ∃ c x, (decLoop src dst k i m).2 = .invalidHexCharacter c x ∧ valid c = false := by
  induction k generalizing i m with
  | zero => exact .inl rfl
  | succ k ih =>
    simp only [decLoop]
    split_ifs with h₁ h₂
    · exact .inr ⟨_, _, rfl, by simpa using h₁⟩
    · exact .inr ⟨_, _, rfl, by simpa using h₂⟩
    · exact ih _ _

/-- Once an iteration has raised, the rest of the spec's loop does nothing. -/
theorem foldl_decIteration_raised (src dst : Addr) (is : List Nat) {p : ByteMap × CmdResult} (hp : p.2 ≠ .ok) :
    is.foldl (decIteration src dst) p = p := by
  induction is with
  | nil => rfl
  | cons i is ih => rw [List.foldl_cons, decIteration, if_pos hp, ih]

/-- DEC's loop is the spec's loop on the byte map, with the same result. -/
theorem readByte_decLoop (src dst : Addr) (k i : Nat) {m : Memory} (hm : Memory.wf m = true) :
    (readByte (decLoop src dst k i m).1, (decLoop src dst k i m).2) =
      (List.range' i k).foldl (decIteration src dst) (readByte m, .ok) := by
  induction k generalizing i m with
  | zero => rfl
  | succ k ih =>
    rw [List.range'_succ, List.foldl_cons]
    simp only [decLoop]
    split_ifs with h₁ h₂
    · rw [foldl_decIteration_raised] <;> simp_all [decIteration]
    · rw [foldl_decIteration_raised] <;> simp_all [decIteration]
    · rw [ih _ (wf_writeByte hm _ _), readByte_writeByte_eq_set hm]
      simp_all [decIteration]

/-- DEC's loop changes no byte but the destination bytes of its pairs. -/
theorem readByte_decLoop_outside (src dst : Addr) (k i : Nat) {m : Memory} (hm : Memory.wf m = true) {a : Addr}
    (ha : ∀ j, i ≤ j → j < i + k → a ≠ byteAddr dst j) :
    readByte (decLoop src dst k i m).1 a = readByte m a := by
  induction k generalizing i m with
  | zero => rfl
  | succ k ih =>
    simp only [decLoop]
    split_ifs
    · rfl
    · rfl
    · rw [ih _ (wf_writeByte hm _ _) fun j h₁ h₂ => ha j (by omega) (by omega),
        readByte_writeByte_ne hm _ (ha _ (by omega) (by omega))]

end Sys2Proof.Machine
end

