-- ==== Sys2Proof/Laws/Commands.lean ====
section
/-! SUPPORT. Laws/Commands.lean: one lemma per command says once how it completes, and two say what every command's completion
leaves (30_encoding.md R86, 60_exceptions.md R194). -/

namespace Sys2Proof.Machine

theorem finish_eq (r : CmdResult) (s : State) : finish r s = .next (complete (recordResult r s)) := rfl

/-- ENC with matching lengths (40_slice_codec.md R111). -/
theorem encodeSlice_ok {rom : Nibble → Byte} {s : State} (h : encLengthOk s.srcLen s.dstLen = true) :
    encodeSlice rom s =
      finish .ok { s with mem := encLoop rom s.srcAddr s.dstAddr s.srcLen.toNat 0 s.mem } := by
  rw [encodeSlice, if_pos h]

/-- ENC with other lengths (40_slice_codec.md R111, R114). -/
theorem encodeSlice_error {rom : Nibble → Byte} {s : State} (h : encLengthOk s.srcLen s.dstLen = false) :
    encodeSlice rom s = finish .invalidStringLength s := by
  rw [encodeSlice, if_neg (by simp [h])]

theorem encLengthOk_iff {n m : Word} : encLengthOk n m = true ↔ m.toNat = 2 * n.toNat := by simp [encLengthOk]

theorem decLengthOk_iff {n m : Word} : decLengthOk n m = true ↔ m.toNat = n.toNat / 2 := by simp [decLengthOk]

theorem isOddLength_iff {n : Word} : isOddLength n = true ↔ n.toNat % 2 = 1 := by
  simp [isOddLength, BitVec.getLsbD, Nat.testBit_zero]

/-- What every completion has in common: a result, RESULT, an iterator and a memory; nothing else of the state changes but BUSY,
DONE and LATCH (30_encoding.md R86, 40_slice_codec.md R110, 43_table_read.md R180). -/
theorem exec_shape (i : Instr) (s : State) :
    ∃ (r : CmdResult) (m : Memory) (b : Bool) (v : Byte) (ia ir : Word) (p c : Bool) (pc : Byte),
      exec i s = finish r { s with
        mem := m, resValid := b, resValue := v, iterAddr := ia, iterRem := ir, pend := p, icase := c, pchar := pc } := by
  have base : ∀ (r : CmdResult) (m : Memory), finish r { s with mem := m } = finish r { s with
      mem := m, resValid := s.resValid, resValue := s.resValue, iterAddr := s.iterAddr, iterRem := s.iterRem,
      pend := s.pend, icase := s.icase, pchar := s.pchar } := fun _ _ => rfl
  have enc : ∀ rom, ∃ r m, encodeSlice rom s = finish r { s with mem := m } := fun rom => by
    cases h : encLengthOk s.srcLen s.dstLen
    · exact ⟨_, s.mem, encodeSlice_error h⟩
    · exact ⟨_, _, encodeSlice_ok h⟩
  have dec : ∃ r m, execDec s = finish r { s with mem := m } := by
    unfold execDec
    split_ifs
    · exact ⟨_, s.mem, rfl⟩
    · exact ⟨_, _, rfl⟩
    · exact ⟨_, s.mem, rfl⟩
  cases i with
  | encL => obtain ⟨r, m, h⟩ := enc encLoRom; exact ⟨r, m, _, _, _, _, _, _, _, h.trans (base r m)⟩
  | encU => obtain ⟨r, m, h⟩ := enc encUpRom; exact ⟨r, m, _, _, _, _, _, _, _, h.trans (base r m)⟩
  | dec => obtain ⟨r, m, h⟩ := dec; exact ⟨r, m, _, _, _, _, _, _, _, h.trans (base r m)⟩
  | iloadL => exact ⟨_, s.mem, _, _, _, _, _, _, _, rfl⟩
  | iloadU => exact ⟨_, s.mem, _, _, _, _, _, _, _, rfl⟩
  | inext =>
    simp only [exec, execInext]
    split_ifs
    · exact ⟨_, s.mem, _, _, s.iterAddr, s.iterRem, _, s.icase, _, rfl⟩
    · exact ⟨_, s.mem, _, _, _, _, _, s.icase, _, rfl⟩
    · exact ⟨_, s.mem, _, _, s.iterAddr, s.iterRem, s.pend, s.icase, s.pchar, rfl⟩
  | tblrdEL idx => exact ⟨_, s.mem, _, _, s.iterAddr, s.iterRem, s.pend, s.icase, s.pchar, rfl⟩
  | tblrdEU idx => exact ⟨_, s.mem, _, _, s.iterAddr, s.iterRem, s.pend, s.icase, s.pchar, rfl⟩
  | tblrdD idx => exact ⟨_, s.mem, _, _, s.iterAddr, s.iterRem, s.pend, s.icase, s.pchar, rfl⟩

/-- Every command completes, from every state (00_scope.md R12, R13). -/
theorem exec_answers_next (i : Instr) (s : State) : ∃ t, exec i s = .next t := by
  obtain ⟨r, m, b, v, ia, ir, p, c, pc, h⟩ := exec_shape i s
  exact ⟨_, h⟩

/-- What a completed command leaves: BUSY = 0, DONE = 1, LATCH empty, and the operand registers, BADCMD, the reset input and the
outside world's side as they were (30_encoding.md R86). -/
theorem exec_completed {i : Instr} {s t : State} (h : exec i s = .next t) :
    t.busy = false ∧ t.done = true ∧ t.latch = none ∧ sameOperands s t ∧ t.badcmd = s.badcmd ∧
      t.resetAsserted = s.resetAsserted ∧ t.env = s.env := by
  obtain ⟨r, m, b, v, ia, ir, p, c, pc, h'⟩ := exec_shape i s
  rw [h'] at h
  cases h
  exact ⟨rfl, rfl, rfl, ⟨rfl, rfl, rfl, rfl⟩, rfl, rfl, rfl⟩

end Sys2Proof.Machine
end

