-- ==== Sys2Proof/Laws/Steps.lean ====
section
/-! SUPPORT. Laws/Steps.lean: what a step is, said once (00_scope.md R11, R12): ENGINE's completion, an idle turn, or one action of
the outside world; and what issue, the bus and reset do. -/

namespace Sys2Proof.Machine

/-! ## Env -/

@[simp] theorem drawLatency_todo (e : Env) : (drawLatency e).todo = e.todo := by
  unfold drawLatency
  split <;> rfl

@[simp] theorem drawLatency_seen (e : Env) : (drawLatency e).seen = e.seen := by
  unfold drawLatency
  split <;> rfl

/-! ## Issue and the bus -/

theorem issue_instr {v : Word} {i : Instr} (h : decode v = .instr i) (s : State) : issue v s = accept v s := by
  simp only [issue, h]

theorem issue_reserved {v : Word} {why : Reserved} (h : decode v = .reserved why) (s : State) : issue v s = reject s := by
  simp only [issue, h]

/-- Either a word is rejected or it is accepted, and then it decodes to a command (30_encoding.md R84, R85). -/
theorem issue_cases (v : Word) (s : State) :
    (∃ i, decode v = .instr i ∧ issue v s = accept v s) ∨ issue v s = reject s := by
  cases h : decode v with
  | instr i => exact .inl ⟨i, rfl, issue_instr h s⟩
  | reserved why => exact .inr (issue_reserved h s)

/-- What a bus write can do (30_encoding.md R81). -/
theorem busWrite_cases (slot : BitVec 4) (v : Word) (s : State) :
    busWrite slot v s = s ∨
      (s.busy = false ∧ slot.toNat = 0 ∧ busWrite slot v s = issue v s) ∨
      (s.busy = false ∧ slot.toNat = 2 ∧ busWrite slot v s = { s with srcAddr := v }) ∨
      (s.busy = false ∧ slot.toNat = 3 ∧ busWrite slot v s = { s with srcLen := v }) ∨
      (s.busy = false ∧ slot.toNat = 4 ∧ busWrite slot v s = { s with dstAddr := v }) ∨
      (s.busy = false ∧ slot.toNat = 5 ∧ busWrite slot v s = { s with dstLen := v }) := by
  cases hb : s.busy
  · simp only [busWrite, hb, Bool.false_eq_true, if_false]
    split <;> simp_all
  · exact .inl (by rw [busWrite, if_pos hb])

/-- A bus read takes free values and changes no register (30_encoding.md R82). -/
theorem busReadDraws_eq (slot : BitVec 4) (s : State) :
    busReadDraws slot s = { s with env := (busReadDraws slot s).env } := by
  unfold busReadDraws
  split <;> rfl

@[simp] theorem busReadDraws_todo (slot : BitVec 4) (s : State) : (busReadDraws slot s).env.todo = s.env.todo := by
  unfold busReadDraws
  split <;> rfl

/-! ## The outside world's turn -/

/-- A read by the host changes only the model's own fields. -/
theorem hostBusRead_eq (off : BitVec 6) (s : State) : hostBusRead off s = { s with env := (hostBusRead off s).env } := by
  unfold hostBusRead
  split
  · rfl
  · rw [busReadDraws_eq]; rfl

theorem hostPoll_eq (s : State) : hostPoll s = { s with env := (hostPoll s).env } := by
  unfold hostPoll
  split
  · exact hostBusRead_eq _ _
  · rw [hostBusRead_eq]; rfl

theorem hostIterRead_eq (dst : Addr) (s : State) : hostIterRead dst s = { s with env := (hostIterRead dst s).env } := by
  unfold hostIterRead
  split
  · split
    · rw [hostBusRead_eq]; rfl
    · exact hostBusRead_eq _ _
  · rw [hostBusRead_eq]; rfl

/-- What an action that is not refused leads to, said once. -/
theorem hostAct_next {act : HostAction} {s t : State} (h : hostAct act s = .next t) :
    (∃ off v, act = .busWrite off v ∧ t = hostBusWrite off v s) ∨
    (∃ dst, act = .iterLoop dst ∧ t = hostIterLoop dst s) ∨
    (∃ a b, act = .memWrite a b ∧ inRunningSets s a = false ∧ t = { s with mem := writeByte s.mem a b }) ∨
    (act = .resetAssert ∧ t = assertReset s) ∨
    (act = .resetRelease ∧ t = releaseReset s) ∨
    t = { s with env := t.env } := by
  cases act with
  | busWrite off v => cases h; exact .inl ⟨_, _, rfl, rfl⟩
  | busRead off => cases h; exact .inr (.inr (.inr (.inr (.inr (hostBusRead_eq _ _)))))
  | memWrite a b =>
    simp only [hostAct, hostMemWrite] at h
    split_ifs at h with hr
    cases h
    exact .inr (.inr (.inl ⟨_, _, rfl, by simpa using hr, rfl⟩))
  | memRead a =>
    simp only [hostAct, hostMemRead] at h
    split_ifs at h with hr
    cases h
    exact .inr (.inr (.inr (.inr (.inr rfl))))
  | poll => cases h; exact .inr (.inr (.inr (.inr (.inr (hostPoll_eq _)))))
  | iterLoop dst => cases h; exact .inr (.inl ⟨_, rfl, rfl⟩)
  | iterRead dst => cases h; exact .inr (.inr (.inr (.inr (.inr (hostIterRead_eq _ _)))))
  | resetAssert => cases h; exact .inr (.inr (.inr (.inl ⟨rfl, rfl⟩)))
  | resetRelease => cases h; exact .inr (.inr (.inr (.inr (.inl ⟨rfl, rfl⟩))))

/-! ## The step -/

theorem step_engine {s : State} (hb : s.busy = true) (ht : s.env.turns = 0) : step s = engineTurn s := by
  rw [step, if_pos hb, if_pos ht]

theorem envAfter_idle {s : State} (hb : s.busy = false) : envAfter s s.env.todo = s.env := by
  rw [envAfter, hb]
  rfl

/-- A turn of the outside world, whichever way it comes (log 3). -/
theorem step_host {s : State} (h : hostMoves s) : step s = hostTurn { s with env := envAfter s s.env.todo } := by
  by_cases hb : s.busy = true
  · have ht : s.env.turns ≠ 0 := h.resolve_left (by simp [hb])
    simp [step, hb, ht, envAfter]
  · rw [envAfter_idle (by simpa using hb), step, if_neg hb]

theorem engine_or_host (s : State) : (s.busy = true ∧ s.env.turns = 0) ∨ hostMoves s := by
  unfold hostMoves
  cases hb : s.busy
  · exact .inr (.inl rfl)
  · by_cases ht : s.env.turns = 0
    · exact .inl ⟨rfl, ht⟩
    · exact .inr (.inr ht)

theorem step_hostTakes {s : State} {act : HostAction} {rest : List HostAction} (h : hostTakes s act rest) :
    step s = hostAct act { s with env := envAfter s rest } := by
  rw [step_host h.1, hostTurn]
  simp only [envAfter, h.2]

theorem step_hostIdle {s : State} (h : hostMoves s) (hs : s.env.todo = []) :
    step s = .next { s with env := envAfter s [] } := by
  rw [step_host h, hostTurn]
  simp only [envAfter, hs]

/-- What a step that answers a next state was, said once (00_scope.md R11, R12). -/
theorem step_next {s t : State} (h : step s = .next t) :
    (∃ i, completes s i ∧ exec i s = .next t) ∨
    (hostMoves s ∧ s.env.todo = [] ∧ t = { s with env := envAfter s [] }) ∨
    (∃ act rest, hostTakes s act rest ∧ hostAct act { s with env := envAfter s rest } = .next t) := by
  rcases engine_or_host s with ⟨hb, ht⟩ | hm
  · left
    rw [step_engine hb ht, engineTurn] at h
    cases hl : s.latch with
    | none => simp only [hl] at h; cases h
    | some v =>
      simp only [hl] at h
      cases hd : decode v with
      | instr i => simp only [hd] at h; exact ⟨i, ⟨hb, ht, v, hl, hd⟩, h⟩
      | reserved why => simp only [hd] at h; cases h
  · right
    cases hs : s.env.todo with
    | nil => rw [step_hostIdle hm hs] at h; cases h; exact .inl ⟨hm, rfl, rfl⟩
    | cons act rest => exact .inr ⟨act, rest, ⟨hm, hs⟩, by rw [← step_hostTakes ⟨hm, hs⟩]; exact h⟩

/-! ## Reset -/

theorem wf_abandonBytes (draw : Nat) (base : Addr) (k : Nat) {m : Memory} (hm : Memory.wf m = true) :
    Memory.wf (abandonBytes draw base k m) = true := by
  induction k with
  | zero => exact hm
  | succ k ih => exact wf_writeByte ih _ _

theorem wf_abandonWriteSet {s : State} (hm : Memory.wf s.mem = true) : Memory.wf (abandonWriteSet s) = true := by
  unfold abandonWriteSet
  split
  · exact wf_abandonBytes _ _ _ hm
  · exact hm

/-- Reset leaves every byte outside an abandoned command's write set (70_reset_and_hazards.md R225). -/
theorem readByte_abandonBytes_outside (draw : Nat) (base : Addr) (k : Nat) {m : Memory} (hm : Memory.wf m = true)
    {a : Addr} (ha : ∀ j < k, a ≠ byteAddr base j) : readByte (abandonBytes draw base k m) a = readByte m a := by
  induction k with
  | zero => rfl
  | succ k ih =>
    rw [abandonBytes, readByte_writeByte_ne (wf_abandonBytes _ _ _ hm) _ (ha k (by omega)),
      ih fun j hj => ha j (by omega)]

end Sys2Proof.Machine
end

