-- ==== Sys2Proof/Laws/PerInstr.lean ====
section
/-! SUPPORT. Laws/PerInstr.lean: for each command, as syntax: its word, when it is well-formed, carries its operands and decodes
to it (30_encoding.md R87, R89, R90). -/

namespace Sys2Proof.Laws

open Sys2Proof

/-! ## The fields of a table-read word -/

theorem fieldIdx_wordWithIdx : ∀ idx : Byte, fieldIdx (wordWithIdx 0x05 idx) = idx ∧
    fieldIdx (wordWithIdx 0x15 idx) = idx ∧ fieldIdx (wordWithIdx 0x25 idx) = idx := by
  decide +kernel

theorem decode_tblrdEL : ∀ idx : Byte, encodeIndexOk idx = true → decode (wordWithIdx 0x05 idx) = .instr (.tblrdEL idx) := by
  decide +kernel

theorem decode_tblrdEU : ∀ idx : Byte, encodeIndexOk idx = true → decode (wordWithIdx 0x15 idx) = .instr (.tblrdEU idx) := by
  decide +kernel

theorem decode_tblrdD : ∀ idx : Byte, decode (wordWithIdx 0x25 idx) = .instr (.tblrdD idx) := by
  decide +kernel

/-! ## The family -/

/-- A well-formed command's word decodes to it. -/
def WordDecodes.Statement (i : Instr) : Prop := i.wellFormed = true → decode (encode i) = .instr i

theorem WordDecodes.encL : WordDecodes.Statement .encL := fun _ => by decide
theorem WordDecodes.encU : WordDecodes.Statement .encU := fun _ => by decide
theorem WordDecodes.dec : WordDecodes.Statement .dec := fun _ => by decide
theorem WordDecodes.iloadL : WordDecodes.Statement .iloadL := fun _ => by decide
theorem WordDecodes.iloadU : WordDecodes.Statement .iloadU := fun _ => by decide
theorem WordDecodes.inext : WordDecodes.Statement .inext := fun _ => by decide
theorem WordDecodes.tblrdEL (idx : Byte) : WordDecodes.Statement (.tblrdEL idx) := decode_tblrdEL idx
theorem WordDecodes.tblrdEU (idx : Byte) : WordDecodes.Statement (.tblrdEU idx) := decode_tblrdEU idx
theorem WordDecodes.tblrdD (idx : Byte) : WordDecodes.Statement (.tblrdD idx) := fun _ => decode_tblrdD idx

end Sys2Proof.Laws
end

