-- ==== Sys2Proof/Certificates/Slice0/Obligations.lean ====
section
/-! DEFINITION. Certificates/Slice0/Obligations.lean: the statements about HEXCODEC, from the spec's numbered rules. Each docstring
names the rule it formalises, or says that it is derived. -/

open Sys2Proof Sys2Proof.Machine

/-! ## Encoding (30_encoding.md) -/

/-- Derived from R87, R89 and R90: a word decodes to a command exactly when the command is well-formed and the word is its word;
no bit of an encoding is dropped and no other word means the command. -/
def Obligations.DecodeInvertsEncodeExactly : Prop :=
  ∀ (v : Word) (i : Instr), decode v = .instr i ↔ i.wellFormed = true ∧ encode i = v

/-- R87: the rows of the opcode table are disjoint; a word decodes to a command of a row exactly when it matches that row; every
other word is reserved. -/
def Obligations.OpcodeRowsAreDisjointAndExact : Prop :=
  (∀ (v : Word), ∀ r ∈ opcodeRows, ∀ r' ∈ opcodeRows,
    v &&& r.2.2 = r.2.1 &&& r.2.2 → v &&& r'.2.2 = r'.2.1 &&& r'.2.2 → r = r') ∧
  (∀ (v : Word), ∀ r ∈ opcodeRows,
    v &&& r.2.2 = r.2.1 &&& r.2.2 ↔ ∃ i, decode v = .instr i ∧ mnemonic i = r.1) ∧
  (∀ (v : Word), (∀ r ∈ opcodeRows, v &&& r.2.2 ≠ r.2.1 &&& r.2.2) → ∃ why, decode v = .reserved why)

/-- R91 with R84: the reserved words are exactly those R91 lists, read off the word's bits as numbers, and issuing one sets
BADCMD and DONE and changes nothing else. -/
def Obligations.ReservedWordsAreRejected : Prop :=
  ∀ (v : Word) (s : State),
    ((∃ why, decode v = .reserved why) ↔
      v.toNat % 16 = 0 ∨ 6 ≤ v.toNat % 16 ∨
      v.toNat / 64 % 4 ≠ 0 ∨ v.toNat / 65536 ≠ 0 ∨
      (v.toNat / 16 % 2 = 1 ∧ (v.toNat % 16 = 2 ∨ v.toNat % 16 = 4)) ∨
      (v.toNat / 32 % 2 = 1 ∧ v.toNat % 16 ≠ 5) ∨
      (v.toNat / 256 % 256 ≠ 0 ∧ v.toNat % 16 ≠ 5) ∨
      (v.toNat % 16 = 5 ∧ v.toNat / 32 % 2 = 0 ∧ v.toNat / 256 % 256 / 16 ≠ 0) ∨
      (v.toNat % 16 = 5 ∧ v.toNat / 32 % 2 = 1 ∧ v.toNat / 16 % 2 = 1)) ∧
    ((∃ why, decode v = .reserved why) → issue v s = { s with badcmd := true, done := true })

/-- Words written out from R87's table decode to the commands they stand for. -/
def Obligations.WordsOfTheTableDecode : Prop :=
  decode 0x00000001 = .instr .encL ∧ decode 0x00000011 = .instr .encU ∧ decode 0x00000002 = .instr .dec ∧
  decode 0x00000003 = .instr .iloadL ∧ decode 0x00000013 = .instr .iloadU ∧ decode 0x00000004 = .instr .inext ∧
  decode 0x00000A05 = .instr (.tblrdEL 0x0A) ∧ decode 0x00000B15 = .instr (.tblrdEU 0x0B) ∧
  decode 0x00004625 = .instr (.tblrdD 0x46)

/-! ## Issue and the register bus (30_encoding.md) -/

/-- R84 and R85 for a host write to CMD while BUSY = 0: a reserved word sets BADCMD and DONE only; any other word fills LATCH,
sets BUSY and clears DONE and BADCMD, and nothing else of the block changes. The latency is left free. -/
def Obligations.IdleCmdWriteIssues : Prop :=
  ∀ (s : State) (off : BitVec 6) (v : Word) (rest : List HostAction),
    hostTakes s (.busWrite off v) rest → s.busy = false → s.resetAsserted = false → off.toNat / 4 = 0 →
    ((∃ why, decode v = .reserved why) →
      step s = .next { s with badcmd := true, done := true, env := envAfter s rest }) ∧
    ((∃ i, decode v = .instr i) → ∃ t, step s = .next t ∧
      t = { s with latch := some v, busy := true, done := false, badcmd := false, env := t.env } ∧
      t.env.todo = rest ∧ t.env.seen = s.env.seen)

/-- R81: what a bus write does, for every slot, off[1:0] ignored; while BUSY = 1 it is dropped. -/
def Obligations.BusWriteFollowsItsTable : Prop :=
  ∀ (s : State) (off : BitVec 6) (v : Word) (rest : List HostAction),
    hostTakes s (.busWrite off v) rest → s.resetAsserted = false →
    (s.busy = true → step s = .next { s with env := envAfter s rest }) ∧
    (s.busy = false →
      (off.toNat / 4 = 0 → step s = .next (issue v { s with env := envAfter s rest })) ∧
      (off.toNat / 4 = 2 → step s = .next { s with srcAddr := v, env := envAfter s rest }) ∧
      (off.toNat / 4 = 3 → step s = .next { s with srcLen := v, env := envAfter s rest }) ∧
      (off.toNat / 4 = 4 → step s = .next { s with dstAddr := v, env := envAfter s rest }) ∧
      (off.toNat / 4 = 5 → step s = .next { s with dstLen := v, env := envAfter s rest }) ∧
      (off.toNat / 4 = 1 ∨ 6 ≤ off.toNat / 4 → step s = .next { s with env := envAfter s rest }))

/-- R82: a bus read gives the host one word and changes no state of the block; the word is the slot's, except that while BUSY =
1 nothing is said of a slot other than STATUS (a draw, R45: the free value is left unconstrained). -/
def Obligations.BusReadFollowsItsTable : Prop :=
  ∀ (s : State) (off : BitVec 6) (rest : List HostAction),
    hostTakes s (.busRead off) rest → s.resetAsserted = false →
    ∃ (w : Word) (t : State), step s = .next t ∧ t = { s with env := t.env } ∧ t.env.todo = rest ∧
      t.env.seen = .reg off (some w) :: s.env.seen ∧
      (s.busy = false ∨ off.toNat / 4 = 1 →
        (off.toNat / 4 = 0 → w = 0) ∧
        (off.toNat / 4 = 1 →
          w.toNat = s.busy.toNat + 2 * s.done.toNat + 4 * s.err.toNat + 16 * s.badcmd.toNat) ∧
        (off.toNat / 4 = 2 → w = s.srcAddr) ∧ (off.toNat / 4 = 3 → w = s.srcLen) ∧
        (off.toNat / 4 = 4 → w = s.dstAddr) ∧ (off.toNat / 4 = 5 → w = s.dstLen) ∧
        (off.toNat / 4 = 6 → w.toNat = s.errChar.toNat) ∧ (off.toNat / 4 = 7 → w = s.errIndex) ∧
        (off.toNat / 4 = 8 → w.toNat = s.resValue.toNat + 256 * s.resValid.toNat) ∧
        (off.toNat / 4 = 9 → w = s.iterAddr) ∧ (off.toNat / 4 = 10 → w = s.iterRem) ∧
        (off.toNat / 4 = 11 → w.toNat = s.pend.toNat + 2 * s.icase.toNat + 256 * s.pchar.toNat) ∧
        (12 ≤ off.toNat / 4 → w = 0))

/-! ## The step -/

/-- Derived from R86: ENGINE's turn is the completion of the latched command, and the step adds nothing around it. -/
def Obligations.EngineTurnRunsTheLatchedCommand : Prop :=
  ∀ (s : State) (i : Instr), completes s i → step s = exec i s

/-- Derived from R85 and R86 (log 9): after a command word is placed as `withFetchWord` places it, the next step runs exactly
it, and placing it changes only what acceptance changes, the reset input and the turn. -/
def Obligations.PlacedWordRunsNext : Prop :=
  ∀ (s : State) (nbits w : Nat) (i : Instr), decodeTableWord nbits w = some i →
    step (s.withFetchWord nbits w) = exec i (s.withFetchWord nbits w) ∧
    s.withFetchWord nbits w =
      { s with latch := some (encode i), busy := true, done := false, badcmd := false, resetAsserted := false,
               env := { s.env with turns := 0 } }

/-- Derived from R86, R110 and R180: every command, from every state, completes: BUSY falls, DONE rises, LATCH empties, and the
operand registers, BADCMD, the reset input and the outside world's side stay. -/
def Obligations.EveryCommandCompletes : Prop :=
  ∀ (i : Instr) (s : State), ∃ t, exec i s = .next t ∧ t.busy = false ∧ t.done = true ∧ t.latch = none ∧
    sameOperands s t ∧ t.badcmd = s.badcmd ∧ t.resetAsserted = s.resetAsserted ∧ t.env = s.env

/-- Derived from R207: between commands, with the outside world doing nothing, the machine "keeps all its state". -/
def Obligations.IdleMachineKeepsItsState : Prop :=
  ∀ (s : State), s.busy = false → s.env.todo = [] → step s = .next s

/-- Derived from R12: from a state that meets the invariant no step faults ("HEXCODEC itself never faults"). -/
def Obligations.NoStepFaults : Prop := ∀ (s : State) (f : Fault), Inv s → step s ≠ .fault f

/-- Derived from R70 and R228(a): from a state that meets the invariant a step is refused exactly when the host, while BUSY = 1,
reads a byte of the running command's write set or writes one of its read or write set. -/
def Obligations.RefusalsAreHostDutyBreaches : Prop :=
  ∀ (s : State), Inv s →
    ((∃ r, step s = .refused r) ↔
      s.busy = true ∧ s.env.turns ≠ 0 ∧ ∃ v i, s.latch = some v ∧ decode v = .instr i ∧
        ((∃ a rest, s.env.todo = .memRead a :: rest ∧ (writeRegion i s).contains a = true) ∨
         (∃ a b rest, s.env.todo = .memWrite a b :: rest ∧
            ((readRegion i s).contains a = true ∨ (writeRegion i s).contains a = true))))

/-- Derived from R68: while BUSY = 1 and until ENGINE's turn, no register of the block changes unless reset is asserted, and
memory changes only by a host write. -/
def Obligations.NoIntermediateStateOfACommand : Prop :=
  ∀ (s t : State), Inv s → s.busy = true → s.env.turns ≠ 0 → step s = .next t →
    (∀ rest, s.env.todo ≠ .resetAssert :: rest) →
    t = { s with mem := t.mem, env := t.env } ∧
      ((∀ a b rest, s.env.todo ≠ .memWrite a b :: rest) → t.mem = s.mem)

/-! ## Invariant -/

/-- The state right after reset meets the invariant. -/
def Obligations.ResetMeetsTheInvariant : Prop := Inv State.reset

/-- Derived from R51 (its three invariants), R39, R41, R44, R48, R84–R86, R220 and log 1: every step keeps the invariant. -/
def Obligations.EveryStepKeepsTheInvariant : Prop :=
  ∀ (s t : State), Inv s → step s = .next t → Inv t

/-! ## Whole-machine rules -/

/-- Derived from R35–R38: an operand register changes only by the host's write of that register while BUSY = 0, which leaves the
written word, or by reset. -/
def Obligations.OperandRegistersChangeOnlyByHostOrReset : Prop :=
  ∀ (s t : State), step s = .next t → (∀ rest, ¬ hostTakes s .resetAssert rest) →
    (t.srcAddr ≠ s.srcAddr → s.busy = false ∧
      ∃ off v rest, hostTakes s (.busWrite off v) rest ∧ off.toNat / 4 = 2 ∧ t.srcAddr = v) ∧
    (t.srcLen ≠ s.srcLen → s.busy = false ∧
      ∃ off v rest, hostTakes s (.busWrite off v) rest ∧ off.toNat / 4 = 3 ∧ t.srcLen = v) ∧
    (t.dstAddr ≠ s.dstAddr → s.busy = false ∧
      ∃ off v rest, hostTakes s (.busWrite off v) rest ∧ off.toNat / 4 = 4 ∧ t.dstAddr = v) ∧
    (t.dstLen ≠ s.dstLen → s.busy = false ∧
      ∃ off v rest, hostTakes s (.busWrite off v) rest ∧ off.toNat / 4 = 5 ∧ t.dstLen = v)

/-- Derived from R160: "The iterator state is changed only by ILOAD.x, INEXT and reset." -/
def Obligations.IteratorChangesOnlyByItsCommands : Prop :=
  ∀ (s t : State), step s = .next t → ¬ sameIterator s t →
    completes s .iloadL ∨ completes s .iloadU ∨ completes s .inext ∨ ∃ rest, hostTakes s .resetAssert rest

/-- Derived from R41 and R166: RESULT is written only by INEXT, TBLRD.x and ILOAD.x, and by reset. -/
def Obligations.ResultChangesOnlyByItsWriters : Prop :=
  ∀ (s t : State), step s = .next t → ¬ sameResult s t →
    completes s .inext ∨ completes s .iloadL ∨ completes s .iloadU ∨
    (∃ idx, completes s (.tblrdEL idx) ∨ completes s (.tblrdEU idx) ∨ completes s (.tblrdD idx)) ∨
    ∃ rest, hostTakes s .resetAssert rest

/-- Derived from R199 and R84: the error record stays until a command completes or reset is asserted; a rejected word leaves it.
-/
def Obligations.ErrorRecordChangesOnlyByCompletion : Prop :=
  ∀ (s t : State), step s = .next t → ¬ sameErrorRecord s t →
    (∃ i, completes s i) ∨ ∃ rest, hostTakes s .resetAssert rest

/-- Derived from R67, R69 and R225: a byte of memory changes only in the write set of the command that completes, by the host's
write of that byte, or in the write set of a command that reset abandons. -/
def Obligations.MemoryChangesOnlyInWriteSets : Prop :=
  ∀ (s t : State) (a : Addr), Inv s → step s = .next t → readByte t.mem a ≠ readByte s.mem a →
    (∃ i, completes s i ∧ (writeRegion i s).contains a = true) ∨
    (∃ b rest, hostTakes s (.memWrite a b) rest ∧ readByte t.mem a = b) ∨
    (∃ rest, hostTakes s .resetAssert rest ∧ inRunningWriteSet s a = true)

/-- Derived from R13: from a state that meets the invariant with BUSY = 1 the command completes (or reset abandons it), unless
the host breaks its duty (R70). The bound, the host turns that are left and one step more, is the model's choice (log 3): R234
leaves LATENCY open and only says that it is finite. -/
def Obligations.EveryAcceptedCommandTerminates : Prop :=
  ∀ (s : State), Inv s → s.busy = true →
    ∃ k ≤ s.env.turns + 1, (∃ t, core.run k s = .next t ∧ t.busy = false) ∨ ∃ r, core.run k s = .refused r

/-- Derived from R96 and R69: `poll` ends with BUSY = 0; when a command was running, the block's state is then that command's
completion, and otherwise it is unchanged. -/
def Obligations.PollWaitsForTheCompletion : Prop :=
  ∀ (s : State) (rest : List HostAction), Inv s → s.resetAsserted = false → s.env.todo = .poll :: rest →
    ∃ k t, core.run k s = .next t ∧ t.busy = false ∧ t.env.todo = rest ∧
      (s.busy = false → t = { s with env := t.env }) ∧
      (s.busy = true → ∃ v i u, s.latch = some v ∧ decode v = .instr i ∧ exec i s = .next u ∧
        t = { u with env := t.env })

/-! ## Reset (70_reset_and_hazards.md) -/

/-- R221: after reset every register of R28 reads 0 and LATCH is empty. -/
def Obligations.ResetRegistersReadZero : Prop :=
  (∀ slot, slotWord slot State.reset = 0) ∧ State.reset.latch = none ∧
  State.reset.busy = false ∧ State.reset.done = false ∧ State.reset.err = 0 ∧ State.reset.badcmd = false ∧
  State.reset.srcAddr = 0 ∧ State.reset.srcLen = 0 ∧ State.reset.dstAddr = 0 ∧ State.reset.dstLen = 0 ∧
  State.reset.errChar = 0 ∧ State.reset.errIndex = 0 ∧ State.reset.resValid = false ∧ State.reset.resValue = 0 ∧
  State.reset.iterAddr = 0 ∧ State.reset.iterRem = 0 ∧ State.reset.pend = false ∧ State.reset.icase = false ∧
  State.reset.pchar = 0

/-- Derived from R225 with R221 and R75: asserting reset abandons the command in LATCH; every register takes its reset value; no
byte outside the abandoned command's write set changes, and none at all when idle. The bytes of the write set are left free. -/
def Obligations.AssertingResetAbandonsTheCommand : Prop :=
  ∀ (s : State) (rest : List HostAction), Memory.wf s.mem = true → hostTakes s .resetAssert rest →
    ∃ t, step s = .next t ∧ atResetValues t ∧ t.resetAsserted = true ∧ t.env.todo = rest ∧
      (∀ a, inRunningWriteSet s a = false → readByte t.mem a = readByte s.mem a) ∧
      (s.busy = false → t.mem = s.mem)

/-- Derived from R220 and log 5 (what the host sees of an access in reset is the model's choice): while reset is asserted a bus
write has no effect and a bus read returns nothing; releasing reset leaves the block idle, at its reset values and out of reset.
-/
def Obligations.NoBusAccessInReset : Prop :=
  ∀ (s : State) (rest : List HostAction), Inv s → s.resetAsserted = true →
    (∀ off v, s.env.todo = .busWrite off v :: rest → step s = .next { s with env := { s.env with todo := rest } }) ∧
    (∀ off, s.env.todo = .busRead off :: rest →
      step s = .next { s with env := { s.env with todo := rest, seen := .reg off none :: s.env.seen } }) ∧
    (s.env.todo = .resetRelease :: rest → ∃ t, step s = .next t ∧
      t = { s with resetAsserted := false, env := { s.env with todo := rest } } ∧ t.busy = false ∧ atResetValues t)

/-! ## Buffer memory (20_memory.md) -/

/-- Derived from R61: MemRead returns mem[a]; MemWrite sets mem[a] and has no effect on any other address. Over canonical
memories, which every step keeps (EveryStepKeepsTheInvariant). -/
def Obligations.ByteReadsAfterByteWrite : Prop :=
  ∀ (m : Memory) (a b : Addr) (v : Byte), Memory.wf m = true →
    readByte (writeByte m a v) a = v ∧ (b ≠ a → readByte (writeByte m a v) b = readByte m b)

/-- Derived from R60, R61 and R69: while BUSY = 0 the host writes and reads single bytes of the shared memory. -/
def Obligations.IdleHostAccessesMemory : Prop :=
  ∀ (s : State) (rest : List HostAction) (a : Addr), Memory.wf s.mem = true → s.busy = false →
    (∀ b, s.env.todo = .memWrite a b :: rest → ∃ t, step s = .next t ∧ readByte t.mem a = b ∧
      (∀ x, x ≠ a → readByte t.mem x = readByte s.mem x) ∧
      t = { s with mem := t.mem, env := { s.env with todo := rest } }) ∧
    (s.env.todo = .memRead a :: rest →
      step s = .next { s with env := { s.env with todo := rest, seen := .byte a (readByte s.mem a) :: s.env.seen } })

/-- Derived from R70: a host write outside RS ∪ WS of a command commutes with the command's completion. -/
def Obligations.HostWriteCommutesWithCompletion : Prop :=
  ∀ (i : Instr) (s t : State) (a : Addr) (b : Byte), Memory.wf s.mem = true →
    (readRegion i s).contains a = false → (writeRegion i s).contains a = false → exec i s = .next t →
    exec i { s with mem := writeByte s.mem a b } = .next { t with mem := writeByte t.mem a b }

/-- Derived from R67: what a command does to the registers and which bytes it writes with which values depends on memory only
through its read set: two states that agree on it end alike, and a byte that ends differently was written in neither. -/
def Obligations.CommandDependsOnlyOnItsReadSet : Prop :=
  ∀ (i : Instr) (s s' t t' : State), Memory.wf s.mem = true → Memory.wf s'.mem = true →
    s' = { s with mem := s'.mem } →
    (∀ a, (readRegion i s).contains a = true → readByte s'.mem a = readByte s.mem a) →
    exec i s = .next t → exec i s' = .next t' →
    t' = { t with mem := t'.mem } ∧
    ∀ a, readByte t'.mem a = readByte t.mem a ∨
      (readByte t.mem a = readByte s.mem a ∧ readByte t'.mem a = readByte s'.mem a)

/-- Derived from R197 (and R50): a command's error record, memory effect and iterator depend only on the operand registers, the
iterator registers and memory, never on earlier results, so "malformed input will always fail identically". -/
def Obligations.OutcomeDependsOnlyOnOperands : Prop :=
  ∀ (i : Instr) (s s' t t' : State), sameOperands s s' → sameIterator s s' → s'.mem = s.mem →
    exec i s = .next t → exec i s' = .next t' →
    sameErrorRecord t t' ∧ t'.mem = t.mem ∧ sameIterator t t'

/-! ## ENC.L and ENC.U (40_slice_codec.md) -/

/-- R113: ENC.x raises InvalidStringLength, with no memory access, exactly-compared lengths being different; for SRC_LEN ≥ 2^31
it always does. -/
def Obligations.EncLengthCheckIsExact : Prop :=
  ∀ (i : Instr) (rom : Nibble → Byte) (s : State), encodesWith i rom →
    s.dstLen.toNat ≠ 2 * s.srcLen.toNat ∨ 2 ^ 31 ≤ s.srcLen.toNat →
    exec i s = .next { s with err := 3, errChar := 0, errIndex := 0, busy := false, done := true, latch := none }

/-- R111 and R112, for every placement of the regions, overlapping or not: ENC.x is the pseudocode's loop on the byte map, and
InvalidStringLength exactly when DST_LEN ≠ 2·SRC_LEN. -/
def Obligations.EncIsThePseudocodeLoop : Prop :=
  ∀ (i : Instr) (rom : Nibble → Byte) (s : State), encodesWith i rom → Memory.wf s.mem = true →
    ∃ t, exec i s = .next t ∧ t.busy = false ∧ t.done = true ∧ t.errChar = 0 ∧ t.errIndex = 0 ∧
      (s.dstLen.toNat = 2 * s.srcLen.toNat → t.err = 0 ∧
        readByte t.mem = encByteMap rom s.srcAddr s.dstAddr s.srcLen.toNat (readByte s.mem)) ∧
      (s.dstLen.toNat ≠ 2 * s.srcLen.toNat → t.err = 3 ∧ t.mem = s.mem)

/-- Derived from R111, R112, R64 and R126: with disjoint regions and DST_LEN = 2·SRC_LEN, ENC.x succeeds for every source
content; destination byte 2i is the high nibble's character of source byte i and byte 2i + 1 the low nibble's; no other byte
changes. -/
def Obligations.EncWritesTheHexText : Prop :=
  ∀ (i : Instr) (rom : Nibble → Byte) (s : State), encodesWith i rom → Memory.wf s.mem = true →
    s.dstLen.toNat = 2 * s.srcLen.toNat →
    disjointRegions s.srcAddr s.srcLen.toNat s.dstAddr s.dstLen.toNat →
    ∃ t, exec i s = .next t ∧ t.err = 0 ∧
      (∀ k < s.srcLen.toNat,
        readByte t.mem (byteAddr s.dstAddr (2 * k)) = rom (hiNibble (readByte s.mem (byteAddr s.srcAddr k))) ∧
        readByte t.mem (byteAddr s.dstAddr (2 * k + 1)) = rom (loNibble (readByte s.mem (byteAddr s.srcAddr k)))) ∧
      sameMemoryOutside s.dstAddr s.dstLen.toNat s t

/-- Frame of ENC.L and ENC.U, derived from R110, R114 and R86: no register but STATUS, ERR_CHAR and ERR_INDEX changes; when
lengths match no byte outside the destination region changes, and otherwise none at all. -/
def Obligations.EncChangesNothingElse : Prop :=
  ∀ (i : Instr) (rom : Nibble → Byte) (s t : State), encodesWith i rom → Memory.wf s.mem = true → exec i s = .next t →
    t = { s with mem := t.mem, err := t.err, errChar := 0, errIndex := 0, busy := false, done := true, latch := none } ∧
    (s.dstLen.toNat = 2 * s.srcLen.toNat → sameMemoryOutside s.dstAddr s.dstLen.toNat s t) ∧
    (s.dstLen.toNat ≠ 2 * s.srcLen.toNat → sameMemory s t)

/-- R118: after a successful ENC.x, overlapping or not, every destination byte is a digit or a letter of its case, a valid hex
digit and ASCII. -/
def Obligations.EncodedBytesAreHexDigits : Prop :=
  ∀ (i : Instr) (rom : Nibble → Byte) (s t : State), encodesWith i rom → Memory.wf s.mem = true →
    exec i s = .next t → t.err = 0 → ∀ k < s.dstLen.toNat,
      let c := readByte t.mem (byteAddr s.dstAddr k)
      ((0x30 ≤ c ∧ c ≤ 0x39) ∨ (i = .encL ∧ 0x61 ≤ c ∧ c ≤ 0x66) ∨ (i = .encU ∧ 0x41 ≤ c ∧ c ≤ 0x46)) ∧
      valid c = true ∧ c.toNat < 0x80

/-! ## DEC (40_slice_codec.md) -/

/-- R116 and R117, for every placement of the regions: parity first, then the length, both before any memory access; then DEC is
the pseudocode's loop on the byte map, whose result is what ERR, ERR_CHAR and ERR_INDEX record. -/
def Obligations.DecIsThePseudocodeLoop : Prop :=
  ∀ (s : State), Memory.wf s.mem = true →
    ∃ t, exec .dec s = .next t ∧ t.busy = false ∧ t.done = true ∧
      (s.srcLen.toNat % 2 = 1 → t.err = 2 ∧ t.errChar = 0 ∧ t.errIndex = 0 ∧ t.mem = s.mem) ∧
      (s.srcLen.toNat % 2 = 0 ∧ s.dstLen.toNat ≠ s.srcLen.toNat / 2 →
        t.err = 3 ∧ t.errChar = 0 ∧ t.errIndex = 0 ∧ t.mem = s.mem) ∧
      (s.srcLen.toNat % 2 = 0 ∧ s.dstLen.toNat = s.srcLen.toNat / 2 →
        readByte t.mem = (decByteMap s.srcAddr s.dstAddr s.dstLen.toNat (readByte s.mem)).1 ∧
        ((decByteMap s.srcAddr s.dstAddr s.dstLen.toNat (readByte s.mem)).2 = .ok →
          t.err = 0 ∧ t.errChar = 0 ∧ t.errIndex = 0) ∧
        (∀ c x, (decByteMap s.srcAddr s.dstAddr s.dstLen.toNat (readByte s.mem)).2 = .invalidHexCharacter c x →
          t.err = 1 ∧ t.errChar = c ∧ t.errIndex = x))

/-- Derived from R116, R117 and R120: OddLength for every odd SRC_LEN whatever DST_LEN and the characters are, else
InvalidStringLength for every DST_LEN ≠ SRC_LEN/2; memory and every other register are unchanged. -/
def Obligations.DecLengthErrorsComeFirst : Prop :=
  ∀ (s : State),
    (s.srcLen.toNat % 2 = 1 →
      exec .dec s =
        .next { s with err := 2, errChar := 0, errIndex := 0, busy := false, done := true, latch := none }) ∧
    (s.srcLen.toNat % 2 = 0 → s.dstLen.toNat ≠ s.srcLen.toNat / 2 →
      exec .dec s =
        .next { s with err := 3, errChar := 0, errIndex := 0, busy := false, done := true, latch := none })

/-- Derived from R116 and R119: with matching lengths, disjoint regions and only hex digits in the source, of either case, DEC
succeeds and destination byte i is {nib of character 2i, nib of character 2i + 1}. -/
def Obligations.DecDecodesHexText : Prop :=
  ∀ (s : State), Memory.wf s.mem = true → s.srcLen.toNat = 2 * s.dstLen.toNat →
    disjointRegions s.srcAddr s.srcLen.toNat s.dstAddr s.dstLen.toNat →
    (∀ k < s.srcLen.toNat, valid (readByte s.mem (byteAddr s.srcAddr k)) = true) →
    ∃ t, exec .dec s = .next t ∧ t.err = 0 ∧ t.errChar = 0 ∧ t.errIndex = 0 ∧
      (∀ i < s.dstLen.toNat,
        (readByte t.mem (byteAddr s.dstAddr i)).toNat =
          16 * (decRom (readByte s.mem (byteAddr s.srcAddr (2 * i)))).toNat +
            (decRom (readByte s.mem (byteAddr s.srcAddr (2 * i + 1)))).toNat) ∧
      sameMemoryOutside s.dstAddr s.dstLen.toNat s t

/-- Derived from R116, R117 and R120: with matching lengths and disjoint regions, DEC stops at the first character that is no
hex digit: it records that character and its index, the bytes of the pairs before it are written, and no other byte changes. -/
def Obligations.DecStopsAtTheFirstInvalidCharacter : Prop :=
  ∀ (s : State) (k : Nat), Memory.wf s.mem = true → s.srcLen.toNat = 2 * s.dstLen.toNat →
    disjointRegions s.srcAddr s.srcLen.toNat s.dstAddr s.dstLen.toNat →
    k < s.srcLen.toNat → valid (readByte s.mem (byteAddr s.srcAddr k)) = false →
    (∀ j < k, valid (readByte s.mem (byteAddr s.srcAddr j)) = true) →
    ∃ t, exec .dec s = .next t ∧ t.err = 1 ∧ t.errChar = readByte s.mem (byteAddr s.srcAddr k) ∧
      t.errIndex.toNat = k ∧
      (∀ i < k / 2, readByte t.mem (byteAddr s.dstAddr i) = decodedByte s.srcAddr (readByte s.mem) i) ∧
      sameMemoryOutside s.dstAddr (k / 2) s t

/-- Derived from R121 and R66: in-place decoding (DST_ADDR = SRC_ADDR) of hex digits gives the bytes disjoint buffers would
give. -/
def Obligations.DecInPlaceDecodesTheOriginalText : Prop :=
  ∀ (s : State), Memory.wf s.mem = true → s.srcLen.toNat = 2 * s.dstLen.toNat → s.dstAddr = s.srcAddr →
    (∀ k < s.srcLen.toNat, valid (readByte s.mem (byteAddr s.srcAddr k)) = true) →
    ∃ t, exec .dec s = .next t ∧ t.err = 0 ∧
      (∀ i < s.dstLen.toNat,
        readByte t.mem (byteAddr s.dstAddr i) = decodedByte s.srcAddr (readByte s.mem) i) ∧
      sameMemoryOutside s.dstAddr s.dstLen.toNat s t

/-- Frame of DEC, derived from R110, R117 and R120: no register but STATUS, ERR_CHAR and ERR_INDEX changes; with matching
lengths no byte outside the destination region changes, and on a length error none at all. -/
def Obligations.DecChangesNothingElse : Prop :=
  ∀ (s t : State), Memory.wf s.mem = true → exec .dec s = .next t →
    t = { s with mem := t.mem, err := t.err, errChar := t.errChar, errIndex := t.errIndex,
                 busy := false, done := true, latch := none } ∧
    (s.srcLen.toNat = 2 * s.dstLen.toNat → sameMemoryOutside s.dstAddr s.dstLen.toNat s t) ∧
    (s.srcLen.toNat ≠ 2 * s.dstLen.toNat → sameMemory s t)

/-- R123: "ENC.x from S to T, then DEC from T to U, succeeds and leaves U equal to S". -/
def Obligations.DecodingAnEncodingGivesItBack : Prop :=
  ∀ (i : Instr) (rom : Nibble → Byte) (s : State) (n2 n : Word) (src txt dst : Addr), encodesWith i rom →
    Memory.wf s.mem = true → n.toNat < 2 ^ 31 → n2.toNat = 2 * n.toNat →
    disjointRegions src n.toNat txt n2.toNat → disjointRegions dst n.toNat txt n2.toNat →
    disjointRegions src n.toNat dst n.toNat →
    s.srcAddr = src → s.srcLen = n → s.dstAddr = txt → s.dstLen = n2 →
    ∃ t u, exec i s = .next t ∧ t.err = 0 ∧
      exec .dec { t with srcAddr := txt, srcLen := n2, dstAddr := dst, dstLen := n } = .next u ∧ u.err = 0 ∧
      ∀ k < n.toNat, readByte u.mem (byteAddr dst k) = readByte s.mem (byteAddr src k) ∧
        readByte u.mem (byteAddr src k) = readByte s.mem (byteAddr src k)

/-- Derived from R125, for disjoint regions: two source texts of hex digits that differ only in the case of letters decode to
the same bytes and both succeed. -/
def Obligations.DecodingIgnoresLetterCase : Prop :=
  ∀ (s s' : State), Memory.wf s.mem = true → Memory.wf s'.mem = true →
    s.srcLen.toNat = 2 * s.dstLen.toNat → s'.srcLen = s.srcLen → s'.dstLen = s.dstLen →
    disjointRegions s.srcAddr s.srcLen.toNat s.dstAddr s.dstLen.toNat →
    disjointRegions s'.srcAddr s'.srcLen.toNat s'.dstAddr s'.dstLen.toNat →
    (∀ k < s.srcLen.toNat, valid (readByte s.mem (byteAddr s.srcAddr k)) = true ∧
      sameButCase (readByte s.mem (byteAddr s.srcAddr k)) (readByte s'.mem (byteAddr s'.srcAddr k))) →
    ∃ t t', exec .dec s = .next t ∧ exec .dec s' = .next t' ∧ t.err = 0 ∧ t'.err = 0 ∧
      ∀ i < s.dstLen.toNat, readByte t.mem (byteAddr s.dstAddr i) = readByte t'.mem (byteAddr s'.dstAddr i)

/-- Derived from R126 and R117: with disjoint regions, ENC.x fails only for its length, and DEC fails exactly when SRC_LEN is
odd, or DST_LEN ≠ SRC_LEN/2, or a source character is no hex digit. -/
def Obligations.EncodingIsTotalDecodingIsPartial : Prop :=
  ∀ (s : State), Memory.wf s.mem = true →
    disjointRegions s.srcAddr s.srcLen.toNat s.dstAddr s.dstLen.toNat →
    (∀ i rom, encodesWith i rom →
      ∃ t, exec i s = .next t ∧ (t.err ≠ 0 ↔ s.dstLen.toNat ≠ 2 * s.srcLen.toNat)) ∧
    ∃ t, exec .dec s = .next t ∧
      (t.err ≠ 0 ↔ s.srcLen.toNat % 2 = 1 ∨ s.dstLen.toNat ≠ s.srcLen.toNat / 2 ∨
        ∃ k < s.srcLen.toNat, valid (readByte s.mem (byteAddr s.srcAddr k)) = false)

/-! ## The iterator (42_iterator.md) -/

/-- R161 and R162: ILOAD.L and ILOAD.U load the cursor, drop a pending character, set the case and clear RESULT; no memory is
read or written and nothing else changes but the completion. -/
def Obligations.IloadStartsAFreshIteration : Prop :=
  ∀ (s : State),
    exec .iloadL s = .next { s with iterAddr := s.srcAddr, iterRem := s.srcLen, pend := false, pchar := 0, icase := false,
                                    resValid := false, resValue := 0, err := 0, errChar := 0, errIndex := 0,
                                    busy := false, done := true, latch := none } ∧
    exec .iloadU s = .next { s with iterAddr := s.srcAddr, iterRem := s.srcLen, pend := false, pchar := 0, icase := true,
                                    resValid := false, resValue := 0, err := 0, errChar := 0, errIndex := 0,
                                    busy := false, done := true, latch := none }

/-- R163: INEXT emits the held character, else reads one byte at the cursor, emits its high character, holds its low one and
moves the cursor (modulo 2^32), else returns VALID = 0; nothing else changes but the completion. -/
def Obligations.InextEmitsTheNextCharacter : Prop :=
  ∀ (s : State),
    (s.pend = true →
      exec .inext s = .next { s with resValid := true, resValue := s.pchar, pend := false, pchar := 0,
                                     err := 0, errChar := 0, errIndex := 0, busy := false, done := true, latch := none }) ∧
    (s.pend = false → s.iterRem ≠ 0 →
      let b := readByte s.mem s.iterAddr
      let rom := if s.icase then encUpRom else encLoRom
      exec .inext s = .next { s with resValid := true, resValue := rom (b.extractLsb' 4 4),
                                     pchar := rom (b.extractLsb' 0 4), pend := true,
                                     iterAddr := s.iterAddr + 1, iterRem := s.iterRem - 1,
                                     err := 0, errChar := 0, errIndex := 0, busy := false, done := true, latch := none }) ∧
    (s.pend = false → s.iterRem = 0 →
      exec .inext s = .next { s with resValid := false, resValue := 0,
                                     err := 0, errChar := 0, errIndex := 0, busy := false, done := true, latch := none })

/-- Derived from R164: INEXT returns VALID = 1 exactly while 2·ITER_REM + PEND characters are still to come, and takes one away.
-/
def Obligations.InextCountsDownTheCharacters : Prop :=
  ∀ (s : State), ∃ t, exec .inext s = .next t ∧ charsToCome t = charsToCome s - 1 ∧
    (t.resValid = true ↔ charsToCome s ≠ 0)

/-- Derived from R164 and R111: after ILOAD.x over n bytes, character k of the next 2n INEXT commands is character k of the
source's encoding in that case, and every later INEXT returns VALID = 0. -/
def Obligations.IterationYieldsTheEncoding : Prop :=
  ∀ (s t : State) (upper : Bool), exec (if upper then .iloadU else .iloadL) s = .next t →
    ∀ k, ∃ u v, afterInexts k t = .next u ∧ exec .inext u = .next v ∧ v.err = 0 ∧ v.mem = s.mem ∧
      (k < 2 * s.srcLen.toNat → v.resValid = true ∧
        v.resValue = encodedChar (romOfCase upper) s.srcAddr (readByte s.mem) k) ∧
      (2 * s.srcLen.toNat ≤ k → v.resValid = false ∧ v.resValue = 0)

/-! ## The ROMs (10_state.md, 43_table_read.md) -/

/-- R180 with R181, R182 and R183: each TBLRD.x puts its ROM's entry in RESULT with VALID = 1 and changes nothing else but the
completion; an encode-ROM index of 16 or more is a reserved word; TBLRD.D's result is a nibble or 0xFF. -/
def Obligations.TableReadsReturnTheEntry : Prop :=
  ∀ (s : State) (idx : Byte),
    (idx.toNat < 16 →
      exec (.tblrdEL idx) s = .next
        { s with
          resValid := true, resValue := encLoRom (idx.extractLsb' 0 4),
          err := 0, errChar := 0, errIndex := 0, busy := false, done := true, latch := none } ∧
      exec (.tblrdEU idx) s = .next
        { s with
          resValid := true, resValue := encUpRom (idx.extractLsb' 0 4),
          err := 0, errChar := 0, errIndex := 0, busy := false, done := true, latch := none }) ∧
    (16 ≤ idx.toNat →
      (∃ why, decode (encode (.tblrdEL idx)) = .reserved why) ∧ ∃ why, decode (encode (.tblrdEU idx)) = .reserved why) ∧
    exec (.tblrdD idx) s = .next
      { s with
        resValid := true, resValue := decRom idx,
        err := 0, errChar := 0, errIndex := 0, busy := false, done := true, latch := none } ∧
    ((decRom idx).toNat < 16 ∨ decRom idx = 0xFF)

/-- R21 and R22 as their formulas give them: 0x30 + n for n ≤ 9, then 0x57 + n in lower case and 0x37 + n in upper case. -/
def Obligations.EncodeRomsHoldTheDigits : Prop :=
  ∀ n : Nibble,
    (n.toNat ≤ 9 → (encLoRom n).toNat = 0x30 + n.toNat ∧ (encUpRom n).toNat = 0x30 + n.toNat) ∧
    (10 ≤ n.toNat → (encLoRom n).toNat = 0x57 + n.toNat ∧ (encUpRom n).toNat = 0x37 + n.toNat)

/-- R23, R24 and R25: the digits and the letters of both cases map to their values, and every other entry is SENTINEL = 0xFF. -/
def Obligations.DecodeRomHoldsTheValues : Prop :=
  (∀ d ≤ 9, decRom (BitVec.ofNat 8 (0x30 + d)) = BitVec.ofNat 8 d) ∧
  (∀ k ≤ 5, decRom (BitVec.ofNat 8 (0x61 + k)) = BitVec.ofNat 8 (10 + k) ∧
    decRom (BitVec.ofNat 8 (0x41 + k)) = BitVec.ofNat 8 (10 + k)) ∧
  (∀ c : Byte, ¬ (0x30 ≤ c.toNat ∧ c.toNat ≤ 0x39) → ¬ (0x41 ≤ c.toNat ∧ c.toNat ≤ 0x46) →
    ¬ (0x61 ≤ c.toNat ∧ c.toNat ≤ 0x66) → decRom c = 0xFF)

/-- R26 and R27: every entry of DEC_ROM is a nibble or 0xFF; it inverts both encode ROMs; `valid` holds exactly for the 22 hex
digits, and `nib` is then the entry. -/
def Obligations.DecodeRomInvertsTheEncodeRoms : Prop :=
  (∀ c : Byte, (decRom c).toNat < 16 ∨ decRom c = 0xFF) ∧
  (∀ n : Nibble, (decRom (encLoRom n)).toNat = n.toNat ∧ (decRom (encUpRom n)).toNat = n.toNat) ∧
  (∀ c : Byte, valid c = true ↔
    (0x30 ≤ c.toNat ∧ c.toNat ≤ 0x39) ∨ (0x41 ≤ c.toNat ∧ c.toNat ≤ 0x46) ∨ (0x61 ≤ c.toNat ∧ c.toNat ≤ 0x66)) ∧
  (∀ c : Byte, valid c = true → (nib c).toNat = (decRom c).toNat)

/-! ## Pseudo-instructions (41_owned_buffer.md) -/

/-- R141 and R142: the assembler refuses ENCODE and ENCODE_UPPER exactly when n ≥ 2^31; otherwise the expansion, run from an
idle block over disjoint regions, ends with BUSY = 0, ERR = 0 and the 2n characters of the encoding at dst. Every latency. -/
def Obligations.EncodePseudoInstructionEncodes : Prop :=
  ∀ (upper : Bool) (src dst : Addr) (n : Nat),
    ((if upper then pseudoEncodeUpper src n dst else pseudoEncode src n dst) = none ↔ 2 ^ 31 ≤ n) ∧
    ∀ (s : State) (acts rest : List HostAction), Inv s → s.busy = false → s.resetAsserted = false →
      (if upper then pseudoEncodeUpper src n dst else pseudoEncode src n dst) = some acts →
      s.env.todo = acts ++ rest → disjointRegions src n dst (2 * n) →
      ∃ k t, core.run k s = .next t ∧ t.env.todo = rest ∧ t.busy = false ∧ t.err = 0 ∧
        t.srcAddr = src ∧ t.srcLen.toNat = n ∧ t.dstAddr = dst ∧ t.dstLen.toNat = 2 * n ∧
        (∀ j < 2 * n, readByte t.mem (byteAddr dst j) = encodedChar (romOfCase upper) src (readByte s.mem) j) ∧
        sameMemoryOutside dst (2 * n) s t

/-- R145: DECODE run from an idle block over disjoint regions: n odd ends with ERR = 2 and memory unchanged; n even ends with
ERR = 0 and the decoded bytes, or with ERR = 1, the first invalid character and the destination as R120 says; ERR = 3 is
impossible; the host reads STATUS, ERR_CHAR and ERR_INDEX last. Every latency. -/
def Obligations.DecodePseudoInstructionDecodes : Prop :=
  ∀ (s : State) (src dst : Addr) (n : Word) (rest : List HostAction), Inv s → s.busy = false → s.resetAsserted = false →
    s.env.todo = pseudoDecode src n dst ++ rest → disjointRegions src n.toNat dst (n.toNat / 2) →
    ∃ k t seen, core.run k s = .next t ∧ t.env.todo = rest ∧ t.busy = false ∧ t.err ≠ 3 ∧
      t.srcAddr = src ∧ t.srcLen = n ∧ t.dstAddr = dst ∧ t.dstLen.toNat = n.toNat / 2 ∧
      t.env.seen = .reg 0x1C (some t.errIndex) :: .reg 0x18 (some (errCharWord t)) ::
        .reg 0x04 (some (statusWord t)) :: seen ∧
      (n.toNat % 2 = 1 → t.err = 2 ∧ sameMemory s t) ∧
      (n.toNat % 2 = 0 → (∀ j < n.toNat, valid (readByte s.mem (byteAddr src j)) = true) →
        t.err = 0 ∧ (∀ i < n.toNat / 2, readByte t.mem (byteAddr dst i) = decodedByte src (readByte s.mem) i) ∧
        sameMemoryOutside dst (n.toNat / 2) s t) ∧
      (∀ j < n.toNat, n.toNat % 2 = 0 → valid (readByte s.mem (byteAddr src j)) = false →
        (∀ h < j, valid (readByte s.mem (byteAddr src h)) = true) →
        t.err = 1 ∧ t.errChar = readByte s.mem (byteAddr src j) ∧ t.errIndex.toNat = j ∧
        (∀ i < j / 2, readByte t.mem (byteAddr dst i) = decodedByte src (readByte s.mem) i) ∧
        sameMemoryOutside dst (j / 2) s t)

/-- R146: DECODE_N run from an idle block: ERR = 2 when n is odd, otherwise ERR = 3 when n/2 ≠ N, both with memory unchanged,
and otherwise the error record and the memory DEC leaves. Every latency, every placement of the regions. -/
def Obligations.DecodeNEnforcesTheContainerLength : Prop :=
  ∀ (s : State) (src dst : Addr) (n capacity : Word) (rest : List HostAction), Inv s → s.busy = false →
    s.resetAsserted = false → s.env.todo = pseudoDecodeN src n dst capacity ++ rest →
    ∃ k t, core.run k s = .next t ∧ t.env.todo = rest ∧ t.busy = false ∧
      (n.toNat % 2 = 1 → t.err = 2 ∧ sameMemory s t) ∧
      (n.toNat % 2 = 0 → n.toNat / 2 ≠ capacity.toNat → t.err = 3 ∧ sameMemory s t) ∧
      (n.toNat % 2 = 0 → n.toNat / 2 = capacity.toNat →
        ∃ u, exec .dec { s with srcAddr := src, srcLen := n, dstAddr := dst, dstLen := capacity } = .next u ∧
          sameErrorRecord u t ∧ sameMemory u t)

/-- Derived from R143 and R144: ENCODE_APPEND and ENCODE_APPEND_UPPER are ENCODE and ENCODE_UPPER at base + len, with the host's
length len + 2n, refused when n ≥ 2^31 or len + 2n ≥ 2^32. -/
def Obligations.AppendIsEncodeAtTheEnd : Prop :=
  ∀ (src base : Addr) (n len newLen : Nat) (acts : List HostAction),
    (pseudoEncodeAppend src n base len = some (acts, newLen) ↔
      n < 2 ^ 31 ∧ len + 2 * n < 2 ^ 32 ∧ newLen = len + 2 * n ∧ pseudoEncode src n (byteAddr base len) = some acts) ∧
    (pseudoEncodeAppendUpper src n base len = some (acts, newLen) ↔
      n < 2 ^ 31 ∧ len + 2 * n < 2 ^ 32 ∧ newLen = len + 2 * n ∧ pseudoEncodeUpper src n (byteAddr base len) = some acts)

/-- Derived from R165: ENCODE_ITER.L and ENCODE_ITER.U, run from an idle block over disjoint regions, end with BUSY = 0, ERR = 0
and RESULT.VALID = 0, and have collected the 2n characters of the encoding at dst, as ENCODE and ENCODE_UPPER write them. Every
latency. -/
def Obligations.EncodeIterCollectsTheEncoding : Prop :=
  ∀ (s : State) (upper : Bool) (src dst : Addr) (n : Word) (rest : List HostAction),
    Inv s → s.busy = false → s.resetAsserted = false → s.env.todo = pseudoEncodeIter upper src n dst ++ rest →
    disjointRegions src n.toNat dst (2 * n.toNat) →
    ∃ k t, core.run k s = .next t ∧ t.env.todo = rest ∧ t.busy = false ∧ t.err = 0 ∧ t.resValid = false ∧
      (∀ j < 2 * n.toNat,
        readByte t.mem (byteAddr dst j) = encodedChar (romOfCase upper) src (readByte s.mem) j) ∧
      sameMemoryOutside dst (2 * n.toNat) s t
end

