-- ==== Sys2Proof/Tests/Slice0.lean ====
section
/-! SUPPORT. Tests/Slice0.lean: small tests whose expected values come from spec/95_test_vectors.md (named in each comment) and from
the encodings of 30_encoding.md R87, and for each statement a witness that its hypotheses can be met. -/

namespace Sys2Proof.Tests

open Sys2Proof Sys2Proof.Machine

/-! ## Small states -/

/-- Cells that hold these bytes from an address. -/
def cells : Nat → List Byte → Memory
  | _, [] => []
  | a, b :: bs => (a, b) :: cells (a + 1) bs

/-- The reset state with a memory and the four operand registers. -/
def st (mem : Memory) (src n dst m : Word) : State :=
  { State.reset with mem := mem, srcAddr := src, srcLen := n, dstAddr := dst, dstLen := m }

/-- The state with actions pending. -/
def pending (acts : List HostAction) (s : State) : State := { s with env := { s.env with todo := acts } }

/-- The state after the acceptance of a word, with host turns left. -/
def busyWith (v : Word) (turns : Nat) (s : State) : State :=
  { latchCommand v s with env := { s.env with turns := turns } }

/-- A value of the next state, if there is one. -/
def ofNext {α : Type} (f : State → α) : Host.Outcome State Fault Refusal → Option α
  | .next t => some (f t)
  | .fault _ => none
  | .refused _ => none

/-- n bytes of memory from an address. -/
def bytesAt (a : Addr) (n : Nat) (s : State) : List Byte := (List.range n).map fun k => readByte s.mem (byteAddr a k)

/-- ERR, ERR_CHAR and ERR_INDEX. -/
def errRecord (s : State) : BitVec 2 × Byte × Word := (s.err, s.errChar, s.errIndex)

theorem next_of_ofNext {α : Type} {f : State → α} {o : Host.Outcome State Fault Refusal} {x : α}
    (h : ofNext f o = some x) : ∃ t, o = .next t ∧ f t = x := by
  cases o with
  | next t => exact ⟨t, rfl, by simpa [ofNext] using h⟩
  | fault _ => cases h
  | refused _ => cases h

theorem inv_st {mem : Memory} (hm : Memory.wf mem = true) (src n dst m : Word) : Inv (st mem src n dst m) where
  latch_busy := rfl
  latch_accepted := fun _ h => by cases h
  busy_flags := fun h => by cases h
  badcmd_done := fun h => by cases h
  pchar_idle := fun _ => rfl
  pchar_digit := fun h => by cases h
  err_record := fun _ => ⟨rfl, rfl⟩
  err_char := fun h => by cases h
  result_valid := fun _ => rfl
  mem_wf := hm
  in_reset := fun h => by cases h

theorem inv_pending {s : State} (h : Inv s) (hr : s.resetAsserted = false) (acts : List HostAction) :
    Inv (pending acts s) where
  latch_busy := h.latch_busy
  latch_accepted := h.latch_accepted
  busy_flags := h.busy_flags
  badcmd_done := h.badcmd_done
  pchar_idle := h.pchar_idle
  pchar_digit := h.pchar_digit
  err_record := h.err_record
  err_char := h.err_char
  result_valid := h.result_valid
  mem_wf := h.mem_wf
  in_reset := fun hr' => absurd (hr.symm.trans hr') Bool.false_ne_true

theorem inv_busyWith {s : State} (h : Inv s) (hr : s.resetAsserted = false) {v : Word} {i : Instr}
    (hd : decode v = .instr i) (turns : Nat) : Inv (busyWith v turns s) where
  latch_busy := rfl
  latch_accepted := fun w hw => ⟨i, by cases hw; exact hd⟩
  busy_flags := fun _ => ⟨rfl, rfl⟩
  badcmd_done := fun hb => by cases hb
  pchar_idle := h.pchar_idle
  pchar_digit := h.pchar_digit
  err_record := h.err_record
  err_char := h.err_char
  result_valid := h.result_valid
  mem_wf := h.mem_wf
  in_reset := fun hr' => absurd (hr.symm.trans hr') Bool.false_ne_true

/-! ## WellFormed smoke test (30_encoding.md R89, R91) -/

theorem test_wellFormed_refuses_encode_index_16 : (Instr.tblrdEL 0x10).wellFormed = false := by decide
theorem test_wellFormed_refuses_encode_index_FF : (Instr.tblrdEU 0xFF).wellFormed = false := by decide
theorem test_wellFormed_admits_last_indexes :
    (Instr.tblrdEL 0x0F).wellFormed = true ∧ (Instr.tblrdEU 0x0F).wellFormed = true ∧
      (Instr.tblrdD 0xFF).wellFormed = true := by decide
/-- The word of an ill-formed command is reserved (D-RSV-14). -/
theorem test_ill_formed_word_is_reserved : decode (encode (.tblrdEL 0x10)) = .reserved .encodeIndex := by decide

/-! ## Decoding: each word written bit by bit as {high, IDX, reserved, T, CASE, OP} (30_encoding.md R83, R87) -/

theorem test_decode_encL : decode (0#16 ++ 0x00#8 ++ 0b00#2 ++ 0b0#1 ++ 0b0#1 ++ 0b0001#4) = .instr .encL := by decide
theorem test_decode_encU : decode (0#16 ++ 0x00#8 ++ 0b00#2 ++ 0b0#1 ++ 0b1#1 ++ 0b0001#4) = .instr .encU := by decide
theorem test_decode_dec : decode (0#16 ++ 0x00#8 ++ 0b00#2 ++ 0b0#1 ++ 0b0#1 ++ 0b0010#4) = .instr .dec := by decide
theorem test_decode_iloadL : decode (0#16 ++ 0x00#8 ++ 0b00#2 ++ 0b0#1 ++ 0b0#1 ++ 0b0011#4) = .instr .iloadL := by decide
theorem test_decode_iloadU : decode (0#16 ++ 0x00#8 ++ 0b00#2 ++ 0b0#1 ++ 0b1#1 ++ 0b0011#4) = .instr .iloadU := by decide
theorem test_decode_inext : decode (0#16 ++ 0x00#8 ++ 0b00#2 ++ 0b0#1 ++ 0b0#1 ++ 0b0100#4) = .instr .inext := by decide
theorem test_decode_tblrdEL :
    decode (0#16 ++ 0x0A#8 ++ 0b00#2 ++ 0b0#1 ++ 0b0#1 ++ 0b0101#4) = .instr (.tblrdEL 0x0A) := by decide
theorem test_decode_tblrdEU :
    decode (0#16 ++ 0x0B#8 ++ 0b00#2 ++ 0b0#1 ++ 0b1#1 ++ 0b0101#4) = .instr (.tblrdEU 0x0B) := by decide
theorem test_decode_tblrdD :
    decode (0#16 ++ 0xC6#8 ++ 0b00#2 ++ 0b1#1 ++ 0b0#1 ++ 0b0101#4) = .instr (.tblrdD 0xC6) := by decide

/-- D-RSV-1 … D-RSV-16: every reserved word, each for its own reason. -/
theorem test_reserved_words :
    [0x00000000, 0x00000006, 0x0000000F, 0x00000012, 0x00000014, 0x00000021, 0x00000022, 0x00000024, 0x00000041,
      0x00000081, 0x00000101, 0x00010001, 0x80000001, 0x00001005, 0x0000FF05, 0x00000035].map decode =
    [.reserved .opcode, .reserved .opcode, .reserved .opcode, .reserved .caseBit, .reserved .caseBit, .reserved .tBit,
      .reserved .tBit, .reserved .tBit, .reserved .reservedBits, .reserved .reservedBits, .reserved .index,
      .reserved .reservedBits, .reserved .reservedBits, .reserved .encodeIndex, .reserved .encodeIndex,
      .reserved .decodeRomCase] := by decide

/-- The opcode table's words through the host's entry point, and a reserved one. -/
theorem test_decodeTableWord :
    [0x00000001, 0x00000011, 0x00000002, 0x00000003, 0x00000013, 0x00000004, 0x00000005, 0x00000015, 0x00000025,
      0x00000035].map (decodeTableWord 32) =
    [some .encL, some .encU, some .dec, some .iloadL, some .iloadU, some .inext, some (.tblrdEL 0), some (.tblrdEU 0),
      some (.tblrdD 0), none] := by decide

/-! ## ROMs: the full DEC_ROM table of 10_state.md, row by row -/

/-- Sixteen sentinels. -/
def ffRow : List Byte := List.replicate 16 0xFF

/-- DEC_ROM as 10_state.md prints it. -/
def decRomTable : List Byte :=
  ffRow ++ ffRow ++ ffRow ++
  [0x00, 0x01, 0x02, 0x03, 0x04, 0x05, 0x06, 0x07, 0x08, 0x09, 0xFF, 0xFF, 0xFF, 0xFF, 0xFF, 0xFF] ++
  [0xFF, 0x0A, 0x0B, 0x0C, 0x0D, 0x0E, 0x0F, 0xFF, 0xFF, 0xFF, 0xFF, 0xFF, 0xFF, 0xFF, 0xFF, 0xFF] ++
  ffRow ++
  [0xFF, 0x0A, 0x0B, 0x0C, 0x0D, 0x0E, 0x0F, 0xFF, 0xFF, 0xFF, 0xFF, 0xFF, 0xFF, 0xFF, 0xFF, 0xFF] ++
  ffRow ++ ffRow ++ ffRow ++ ffRow ++ ffRow ++ ffRow ++ ffRow ++ ffRow ++ ffRow

theorem test_decRom_is_the_printed_table : (List.range 256).map (fun c => decRom (BitVec.ofNat 8 c)) = decRomTable := by
  decide +kernel

/-! ## Commands (spec/95_test_vectors.md) -/

/-- D-ENC-14: ENC.L over regions that wrap past 0xFFFFFFFF. -/
theorem test_encL_wraps :
    ofNext (bytesAt 0xFFFFFFFE 4) (exec .encL (st [(0, 0x5A), (0xFFFFFFFF, 0xA5)] 0xFFFFFFFF 2 0xFFFFFFFE 4)) =
      some [0x61, 0x35, 0x35, 0x61] := by decide +kernel
/-- D-ENC-16: an overlap that overwrites source byte 1. -/
theorem test_encL_overlap :
    ofNext (bytesAt 0x1000 4) (exec .encL (st (cells 0x1000 [0x12, 0x34]) 0x1000 2 0x1000 4)) =
      some [0x31, 0x32, 0x33, 0x32] := by decide +kernel
/-- D-ENC-10: every nibble in upper case. -/
theorem test_encU_every_nibble :
    ofNext (bytesAt 0x2000 16)
      (exec .encU (st (cells 0x1000 [0x01, 0x23, 0x45, 0x67, 0x89, 0xAB, 0xCD, 0xEF]) 0x1000 8 0x2000 16)) =
      some (asciiBytes "0123456789ABCDEF") := by decide +kernel
/-- D-ENC-13 (as ENC.U, R112): 2·0x80000000 does not wrap to 0. -/
theorem test_encU_exact_length :
    ofNext (fun t => (errRecord t, statusWord t)) (exec .encU (st [] 0x1000 0x80000000 0x2000 0)) =
      some ((3, 0, 0), 0x0000000E) := by decide
/-- D-DEC-32: overlap, pair 1 reads the byte pair 0 wrote. -/
theorem test_dec_overlap :
    ofNext (bytesAt 0x1000 4) (exec .dec (st (cells 0x1000 [0x34, 0x31, 0x34, 0x32]) 0x1000 4 0x1002 2)) =
      some [0x34, 0x31, 0x41, 0xA2] := by decide +kernel
/-- W2: "66ag" stops at 'g', index 3, with the first byte written. -/
theorem test_dec_66ag :
    ofNext (fun t => (bytesAt 0x2000 2 t, errRecord t, statusWord t))
      (exec .dec (st (cells 0x1000 [0x36, 0x36, 0x61, 0x67] ++ cells 0x2000 [0xEE, 0xEE]) 0x1000 4 0x2000 2)) =
      some ([0x66, 0xEE], (1, 0x67, 3), 0x00000006) := by decide +kernel
/-- D-IT-1: ILOAD.L. -/
theorem test_iloadL :
    ofNext (fun t => (t.iterAddr, t.iterRem, iterStateWord t, resultWord t))
      (exec .iloadL { st [] 0x100 1 0 0 with resValid := true, resValue := 7, pend := true, pchar := 0x31 }) =
      some (0x100, 1, 0, 0) := by decide
/-- D-IT-9: ILOAD.U restarts in mid-stream. -/
theorem test_iloadU :
    ofNext (fun t => (t.iterAddr, t.iterRem, iterStateWord t, resultWord t))
      (exec .iloadU { st [] 0x100 2 0 0 with iterAddr := 0x101, iterRem := 1, pend := true, pchar := 0x32 }) =
      some (0x100, 2, 2, 0) := by decide
/-- D-IT-2: INEXT emits the high character and holds the low one. -/
theorem test_inext_high :
    ofNext (fun t => (resultWord t, t.iterAddr, t.iterRem, iterStateWord t))
      (exec .inext { st [(0x100, 0xA5)] 0 0 0 0 with iterAddr := 0x100, iterRem := 1 }) =
      some (0x161, 0x101, 0, 0x00003501) := by decide +kernel
/-- D-IT-3: INEXT emits the held character. -/
theorem test_inext_held :
    ofNext (fun t => (resultWord t, iterStateWord t))
      (exec .inext { st [] 0 0 0 0 with pend := true, pchar := 0x35 }) = some (0x135, 0) := by decide
/-- D-ROM-3. -/
theorem test_tblrdEL : ofNext resultWord (exec (.tblrdEL 10) State.reset) = some 0x00000161 := by decide
/-- D-ROM-6. -/
theorem test_tblrdEU : ofNext resultWord (exec (.tblrdEU 11) State.reset) = some 0x00000142 := by decide
/-- D-ROM-14 and D-ROM-15. -/
theorem test_tblrdD :
    ofNext resultWord (exec (.tblrdD 0x46) State.reset) = some 0x0000010F ∧
      ofNext resultWord (exec (.tblrdD 0x47) State.reset) = some 0x000001FF := by decide

/-! ## The bus, the step and the assembler -/

/-- D-RSV-4 through a host write, with ERR = 3 before: STATUS = 0x0000001E. -/
theorem test_rejected_word :
    ofNext statusWord (step (pending [.busWrite 0x00 0x00000012] { State.reset with err := 3 })) = some 0x0000001E := by
  decide
/-- D-BUS-3: off[1:0] is ignored. -/
theorem test_write_unaligned_offset :
    ofNext State.srcLen (step (pending [.busWrite 0x0D 0x1234] State.reset)) = some 0x1234 := by decide
/-- D-BUS-2: a write while BUSY = 1 is dropped. -/
theorem test_write_while_busy :
    ofNext State.srcLen (step (busyWith 1 1 (pending [.busWrite 0x0C 0x1234] State.reset))) = some 0 := by decide
/-- D-RST-2: ENC.L right after reset, as the next step after its word is placed: STATUS = 2. -/
theorem test_placed_word_runs : ofNext statusWord (step (State.reset.withFetchWord 32 1)) = some 2 := by decide
/-- D-OWN-9: the assembler refuses ENCODE of 2^31 bytes. -/
theorem test_encode_refused : expandLine (.encode false 0x1000 0x80000000 0x2000) = none := by decide
/-- D-OWN-3: ENCODE_APPEND's writes and the host's new length. -/
theorem test_encode_append :
    pseudoEncodeAppend 0x1000 1 0x2000 2 =
      some ([.busWrite 0x08 0x1000, .busWrite 0x0C 1, .busWrite 0x10 0x2002, .busWrite 0x14 2, .busWrite 0x00 1, .poll], 4) := by
  decide
/-- P3, line 4 and 7 to 12, one round: a character read from RESULT is stored and the loop goes on. -/
theorem test_iterRead_stores :
    ofNext (fun t => t.env.todo) (step (pending [.iterRead 0x5000] { State.reset with resValid := true, resValue := 0x36 })) =
      some [.memWrite 0x5000 0x36, .iterLoop 0x5001] := by decide
/-- The register window at REG_BASE (30_encoding.md R80). -/
theorem test_window : windowOffset 0x40000000 0x40000009 = some 9 ∧ windowOffset 0x40000000 0x40000040 = none := by decide

end Sys2Proof.Tests
end

