-- ==== Sys2Proof/Tests/Witnesses.lean ====
section
/-! SUPPORT. Tests/Witnesses.lean: for each statement with hypotheses, a concrete state and operands that meet them together; for a
statement with several clauses, one for each clause, at a boundary of its range. -/

namespace Sys2Proof.Tests

open Sys2Proof Sys2Proof.Machine

/-! ## States -/

/-- "kiwi" at 0x1000, encoded to 0x2000. -/
def kiwi : State := st (cells 0x1000 [0x6B, 0x69, 0x77, 0x69]) 0x1000 4 0x2000 8
/-- "fF" at 0x1000, decoded to 0x2000. -/
def hexFF : State := st (cells 0x1000 [0x66, 0x46]) 0x1000 2 0x2000 1
/-- "66ag" at 0x1000, decoded to 0x2000. -/
def hex66ag : State := st (cells 0x1000 [0x36, 0x36, 0x61, 0x67]) 0x1000 4 0x2000 2
/-- "kiwi" with ENC.L latched, one host turn left and an action pending. -/
def busyKiwi (turns : Nat) (acts : List HostAction) : State := busyWith 0x00000001 turns (pending acts kiwi)
/-- The reset input asserted, with an action pending. -/
def inReset (acts : List HostAction) : State := { pending acts State.reset with resetAsserted := true }

theorem inv_kiwi (acts : List HostAction) : Inv (pending acts kiwi) := inv_pending (inv_st (by decide) _ _ _ _) rfl _
theorem inv_busyKiwi (turns : Nat) (acts : List HostAction) : Inv (busyKiwi turns acts) :=
  inv_busyWith (inv_kiwi acts) rfl (i := .encL) (by decide) turns
theorem inv_inReset (acts : List HostAction) : Inv (inReset acts) where
  latch_busy := rfl
  latch_accepted := fun _ h => by cases h
  busy_flags := fun h => by cases h
  badcmd_done := fun h => by cases h
  pchar_idle := fun _ => rfl
  pchar_digit := fun h => by cases h
  err_record := fun _ => ⟨rfl, rfl⟩
  err_char := fun h => by cases h
  result_valid := fun _ => rfl
  mem_wf := rfl
  in_reset := fun _ => rfl

/-! ## Encoding -/

theorem witness_OpcodeRowsAreDisjointAndExact :
    (∃ r ∈ opcodeRows, (0x0000FF25 : Word) &&& r.2.2 = r.2.1 &&& r.2.2) ∧
      ∀ r ∈ opcodeRows, (0x00001005 : Word) &&& r.2.2 ≠ r.2.1 &&& r.2.2 := by decide
theorem witness_ReservedWordsAreRejected : ∃ why, decode 0x0000FF35 = .reserved why := ⟨.decodeRomCase, by decide⟩

/-! ## Issue and the bus -/

theorem witness_IdleCmdWriteIssues_reserved :
    let s := pending [.busWrite 0x03 0x00000006] State.reset
    hostTakes s (.busWrite 0x03 0x00000006) [] ∧ s.busy = false ∧ s.resetAsserted = false ∧
      (0x03 : BitVec 6).toNat / 4 = 0 ∧ ∃ why, decode 0x00000006 = .reserved why :=
  ⟨⟨.inl rfl, rfl⟩, rfl, rfl, by decide, .opcode, by decide⟩
theorem witness_IdleCmdWriteIssues_accepted :
    let s := pending [.busWrite 0x00 0x00000004] State.reset
    hostTakes s (.busWrite 0x00 0x00000004) [] ∧ s.busy = false ∧ s.resetAsserted = false ∧
      (0x00 : BitVec 6).toNat / 4 = 0 ∧ ∃ i, decode 0x00000004 = .instr i :=
  ⟨⟨.inl rfl, rfl⟩, rfl, rfl, by decide, .inext, by decide⟩
/-- Every clause on an idle block: for each offset of the window, CMD's, the operand registers' and the ignored ones. -/
theorem witness_BusWriteFollowsItsTable_idle (off : BitVec 6) (v : Word) :
    let s := pending [.busWrite off v] State.reset
    hostTakes s (.busWrite off v) [] ∧ s.resetAsserted = false ∧ s.busy = false := ⟨⟨.inl rfl, rfl⟩, rfl, rfl⟩
theorem witness_BusWriteFollowsItsTable_offsets :
    (0x03 : BitVec 6).toNat / 4 = 0 ∧ (0x08 : BitVec 6).toNat / 4 = 2 ∧ (0x0B : BitVec 6).toNat / 4 = 2 ∧
      (0x0C : BitVec 6).toNat / 4 = 3 ∧ (0x0F : BitVec 6).toNat / 4 = 3 ∧ (0x10 : BitVec 6).toNat / 4 = 4 ∧
      (0x17 : BitVec 6).toNat / 4 = 5 ∧ (0x04 : BitVec 6).toNat / 4 = 1 ∧ 6 ≤ (0x18 : BitVec 6).toNat / 4 ∧
      6 ≤ (0x3F : BitVec 6).toNat / 4 := by decide
theorem witness_BusWriteFollowsItsTable_busy :
    let s := busyKiwi 1 [.busWrite 0x0C 7]
    hostTakes s (.busWrite 0x0C 7) [] ∧ s.resetAsserted = false ∧ s.busy = true :=
  ⟨⟨.inr (by decide), rfl⟩, rfl, rfl⟩
/-- Every clause on an idle block, for each offset of the window. -/
theorem witness_BusReadFollowsItsTable_idle (off : BitVec 6) :
    let s := pending [.busRead off] State.reset
    hostTakes s (.busRead off) [] ∧ s.resetAsserted = false ∧ s.busy = false := ⟨⟨.inl rfl, rfl⟩, rfl, rfl⟩
theorem witness_BusReadFollowsItsTable_busy :
    let s := busyKiwi 1 [.busRead 0x07]
    hostTakes s (.busRead 0x07) [] ∧ s.resetAsserted = false ∧ s.busy = true ∧ (0x07 : BitVec 6).toNat / 4 = 1 :=
  ⟨⟨.inr (by decide), rfl⟩, rfl, rfl, by decide⟩

/-! ## The step -/

theorem witness_completes : completes (busyKiwi 0 []) .encL := ⟨rfl, rfl, 0x00000001, rfl, by decide⟩
theorem witness_EngineTurnRunsTheLatchedCommand : ∃ s i, completes s i := ⟨_, _, witness_completes⟩
theorem witness_PlacedWordRunsNext : decodeTableWord 32 0x0000FF25 = some (.tblrdD 0xFF) := by decide
theorem witness_IdleMachineKeepsItsState : kiwi.busy = false ∧ kiwi.env.todo = [] := ⟨rfl, rfl⟩
theorem witness_NoStepFaults : Inv (busyKiwi 0 []) := inv_busyKiwi _ _
theorem witness_RefusalsAreHostDutyBreaches_read :
    let s := busyKiwi 1 [.memRead 0x2007]
    Inv s ∧ s.busy = true ∧ s.env.turns ≠ 0 ∧ decode 0x00000001 = .instr .encL ∧ s.latch = some 0x00000001 ∧
      (writeRegion .encL s).contains 0x2007 = true :=
  ⟨inv_busyKiwi _ _, rfl, by decide, by decide, rfl, by decide⟩
theorem witness_RefusalsAreHostDutyBreaches_write :
    let s := busyKiwi 1 [.memWrite 0x1003 7]
    Inv s ∧ s.busy = true ∧ s.env.turns ≠ 0 ∧ (readRegion .encL s).contains 0x1003 = true :=
  ⟨inv_busyKiwi _ _, rfl, by decide, by decide⟩
theorem witness_NoIntermediateStateOfACommand :
    let s := busyKiwi 1 [.poll]
    Inv s ∧ s.busy = true ∧ s.env.turns ≠ 0 ∧ (∃ t, step s = .next t) ∧ (∀ rest, s.env.todo ≠ .resetAssert :: rest) ∧
      ∀ a b rest, s.env.todo ≠ .memWrite a b :: rest :=
  ⟨inv_busyKiwi _ _, rfl, by decide, ⟨_, rfl⟩, by simp [busyKiwi, busyWith, pending],
    by simp [busyKiwi, busyWith, pending]⟩
theorem witness_EveryStepKeepsTheInvariant : Inv (busyKiwi 0 []) ∧ ∃ t, step (busyKiwi 0 []) = .next t :=
  ⟨inv_busyKiwi _ _, _, rfl⟩

/-! ## Whole-machine rules -/

theorem witness_OperandRegistersChangeOnlyByHostOrReset :
    (∃ t, step (pending [.busWrite 0x08 1] State.reset) = .next t ∧ t.srcAddr ≠ State.reset.srcAddr) ∧
    (∃ t, step (pending [.busWrite 0x0C 1] State.reset) = .next t ∧ t.srcLen ≠ State.reset.srcLen) ∧
    (∃ t, step (pending [.busWrite 0x10 1] State.reset) = .next t ∧ t.dstAddr ≠ State.reset.dstAddr) ∧
    (∃ t, step (pending [.busWrite 0x14 1] State.reset) = .next t ∧ t.dstLen ≠ State.reset.dstLen) ∧
    ∀ off rest, ¬ hostTakes (pending [.busWrite off 1] State.reset) .resetAssert rest :=
  ⟨⟨_, rfl, by decide⟩, ⟨_, rfl, by decide⟩, ⟨_, rfl, by decide⟩, ⟨_, rfl, by decide⟩, fun _ _ h => by cases h.2⟩
theorem witness_IteratorChangesOnlyByItsCommands :
    ∃ t, step (busyWith 0x00000013 0 kiwi) = .next t ∧ ¬ sameIterator (busyWith 0x00000013 0 kiwi) t :=
  ⟨_, rfl, fun h => absurd h.2.1 (by decide)⟩
theorem witness_ResultChangesOnlyByItsWriters :
    ∃ t, step (busyWith 0x00000A05 0 kiwi) = .next t ∧ ¬ sameResult (busyWith 0x00000A05 0 kiwi) t :=
  ⟨_, rfl, fun h => absurd h.1 (by decide)⟩
theorem witness_ErrorRecordChangesOnlyByCompletion :
    ∃ t, step (busyWith 0x00000002 0 kiwi) = .next t ∧ ¬ sameErrorRecord (busyWith 0x00000002 0 kiwi) t :=
  ⟨_, rfl, fun h => absurd h.1 (by decide)⟩
theorem witness_MemoryChangesOnlyInWriteSets_command :
    Inv (busyKiwi 0 []) ∧ ∃ t, step (busyKiwi 0 []) = .next t ∧
      readByte t.mem 0x2007 ≠ readByte (busyKiwi 0 []).mem 0x2007 :=
  ⟨inv_busyKiwi _ _, _, rfl, by decide +kernel⟩
theorem witness_MemoryChangesOnlyInWriteSets_host :
    Inv (pending [.memWrite 0xFFFFFFFF 7] kiwi) ∧ ∃ t, step (pending [.memWrite 0xFFFFFFFF 7] kiwi) = .next t ∧
      readByte t.mem 0xFFFFFFFF ≠ readByte kiwi.mem 0xFFFFFFFF :=
  ⟨inv_kiwi _, _, rfl, by decide +kernel⟩
theorem witness_EveryAcceptedCommandTerminates :
    Inv (busyKiwi 3 [.poll]) ∧ (busyKiwi 3 [.poll]).busy = true := ⟨inv_busyKiwi _ _, rfl⟩
theorem witness_PollWaitsForTheCompletion_busy :
    let s := busyKiwi 3 [.poll]
    Inv s ∧ s.resetAsserted = false ∧ s.env.todo = [.poll] ∧ s.busy = true := ⟨inv_busyKiwi _ _, rfl, rfl, rfl⟩
theorem witness_PollWaitsForTheCompletion_idle :
    let s := pending [.poll] kiwi
    Inv s ∧ s.resetAsserted = false ∧ s.env.todo = [.poll] ∧ s.busy = false := ⟨inv_kiwi _, rfl, rfl, rfl⟩

/-! ## Reset -/

theorem witness_AssertingResetAbandonsTheCommand_busy :
    let s := busyKiwi 1 [.resetAssert]
    Memory.wf s.mem = true ∧ hostTakes s .resetAssert [] ∧ inRunningWriteSet s 0x2008 = false ∧
      inRunningWriteSet s 0x2007 = true := ⟨by decide, ⟨.inr (by decide), rfl⟩, by decide, by decide⟩
theorem witness_AssertingResetAbandonsTheCommand_idle :
    let s := pending [.resetAssert] kiwi
    Memory.wf s.mem = true ∧ hostTakes s .resetAssert [] ∧ s.busy = false := ⟨by decide, ⟨.inl rfl, rfl⟩, rfl⟩
theorem witness_NoBusAccessInReset (acts : List HostAction) :
    Inv (inReset acts) ∧ (inReset acts).resetAsserted = true ∧ (inReset acts).env.todo = acts := ⟨inv_inReset _, rfl, rfl⟩
theorem witness_NoBusAccessInReset_clauses :
    (inReset [.busWrite 0x08 1]).env.todo = .busWrite 0x08 1 :: [] ∧ (inReset [.busRead 0x04]).env.todo = .busRead 0x04 :: [] ∧
      (inReset [.resetRelease]).env.todo = .resetRelease :: [] := ⟨rfl, rfl, rfl⟩

/-! ## Memory -/

theorem witness_ByteReadsAfterByteWrite : Memory.wf kiwi.mem = true ∧ (0xFFFFFFFF : Addr) ≠ 0 := by decide
theorem witness_IdleHostAccessesMemory_write :
    let s := pending [.memWrite 0xFFFFFFFF 0] kiwi
    Memory.wf s.mem = true ∧ s.busy = false ∧ s.env.todo = .memWrite 0xFFFFFFFF 0 :: [] := ⟨by decide, rfl, rfl⟩
theorem witness_IdleHostAccessesMemory_read :
    let s := pending [.memRead 0x1000] kiwi
    Memory.wf s.mem = true ∧ s.busy = false ∧ s.env.todo = .memRead 0x1000 :: [] := ⟨by decide, rfl, rfl⟩
theorem witness_HostWriteCommutesWithCompletion :
    Memory.wf kiwi.mem = true ∧ (readRegion .encL kiwi).contains 0x1004 = false ∧
      (writeRegion .encL kiwi).contains 0x2008 = false ∧ (writeRegion .encL kiwi).contains 0x1004 = false ∧
      ∃ t, exec .encL kiwi = .next t := ⟨by decide, by decide, by decide, by decide, _, rfl⟩
theorem witness_CommandDependsOnlyOnItsReadSet :
    let s := kiwi
    let s' := { kiwi with mem := writeByte kiwi.mem 0x1004 7 }
    Memory.wf s.mem = true ∧ Memory.wf s'.mem = true ∧ s' = { s with mem := s'.mem } ∧
      (∀ a, (readRegion .encL s).contains a = true → readByte s'.mem a = readByte s.mem a) ∧
      (∃ t, exec .encL s = .next t) ∧ ∃ t', exec .encL s' = .next t' :=
  ⟨by decide, by decide, rfl,
    fun a ha => readByte_writeByte_ne (by decide) _ (fun h => by subst h; exact absurd ha (by decide)),
    ⟨_, rfl⟩, ⟨_, rfl⟩⟩
theorem witness_OutcomeDependsOnlyOnOperands :
    let s' := { kiwi with err := 3, badcmd := true, resValue := 9 }
    sameOperands kiwi s' ∧ sameIterator kiwi s' ∧ s'.mem = kiwi.mem ∧ (∃ t, exec .dec kiwi = .next t) ∧
      ∃ t', exec .dec s' = .next t' :=
  ⟨⟨rfl, rfl, rfl, rfl⟩, ⟨rfl, rfl, rfl, rfl, rfl⟩, rfl, ⟨_, rfl⟩, ⟨_, rfl⟩⟩

/-! ## ENC -/

theorem witness_encodesWith : encodesWith .encL encLoRom ∧ encodesWith .encU encUpRom := ⟨.inl ⟨rfl, rfl⟩, .inr ⟨rfl, rfl⟩⟩
theorem witness_EncLengthCheckIsExact :
    (st [] 0 4 0 7).dstLen.toNat ≠ 2 * (st [] 0 4 0 7).srcLen.toNat ∧ 2 ^ 31 ≤ (st [] 0 0x80000000 0 0).srcLen.toNat := by
  decide
theorem witness_EncIsThePseudocodeLoop :
    Memory.wf kiwi.mem = true ∧ kiwi.dstLen.toNat = 2 * kiwi.srcLen.toNat ∧
      Memory.wf (st [] 0 0 0 2).mem = true ∧ (st [] 0 0 0 2).dstLen.toNat ≠ 2 * (st [] 0 0 0 2).srcLen.toNat := by decide
theorem disjoint_kiwi : disjointRegions kiwi.srcAddr kiwi.srcLen.toNat kiwi.dstAddr kiwi.dstLen.toNat := by
  unfold disjointRegions
  decide
theorem witness_EncWritesTheHexText :
    Memory.wf kiwi.mem = true ∧ kiwi.dstLen.toNat = 2 * kiwi.srcLen.toNat ∧
      disjointRegions kiwi.srcAddr kiwi.srcLen.toNat kiwi.dstAddr kiwi.dstLen.toNat :=
  ⟨by decide, by decide, disjoint_kiwi⟩
theorem witness_EncChangesNothingElse :
    (∃ t, exec .encL kiwi = .next t ∧ kiwi.dstLen.toNat = 2 * kiwi.srcLen.toNat) ∧
      ∃ t, exec .encU hexFF = .next t ∧ hexFF.dstLen.toNat ≠ 2 * hexFF.srcLen.toNat :=
  ⟨⟨_, rfl, by decide⟩, _, rfl, by decide⟩
theorem witness_EncodedBytesAreHexDigits : ∃ t, exec .encL kiwi = .next t ∧ t.err = 0 ∧ 7 < kiwi.dstLen.toNat :=
  ⟨_, rfl, by decide, by decide⟩

/-! ## DEC -/

theorem witness_DecIsThePseudocodeLoop :
    (st [] 0 1 0 0).srcLen.toNat % 2 = 1 ∧
      ((st [] 0 2 0 2).srcLen.toNat % 2 = 0 ∧ (st [] 0 2 0 2).dstLen.toNat ≠ (st [] 0 2 0 2).srcLen.toNat / 2) ∧
      (hexFF.srcLen.toNat % 2 = 0 ∧ hexFF.dstLen.toNat = hexFF.srcLen.toNat / 2) ∧ Memory.wf hexFF.mem = true := by decide
theorem witness_DecIsThePseudocodeLoop_results :
    (decByteMap hexFF.srcAddr hexFF.dstAddr 1 (readByte hexFF.mem)).2 = .ok ∧
      (decByteMap hex66ag.srcAddr hex66ag.dstAddr 2 (readByte hex66ag.mem)).2 = .invalidHexCharacter 0x67 3 :=
  ⟨by decide +kernel, by decide +kernel⟩
theorem witness_DecLengthErrorsComeFirst :
    (st [] 0 1 0 7).srcLen.toNat % 2 = 1 ∧ (st [] 0 0 0 1).srcLen.toNat % 2 = 0 ∧
      (st [] 0 0 0 1).dstLen.toNat ≠ (st [] 0 0 0 1).srcLen.toNat / 2 := by decide
theorem disjoint_hexFF : disjointRegions hexFF.srcAddr hexFF.srcLen.toNat hexFF.dstAddr hexFF.dstLen.toNat := by
  unfold disjointRegions
  decide
theorem disjoint_hex66ag :
    disjointRegions hex66ag.srcAddr hex66ag.srcLen.toNat hex66ag.dstAddr hex66ag.dstLen.toNat := by
  unfold disjointRegions
  decide
theorem witness_DecDecodesHexText :
    Memory.wf hexFF.mem = true ∧ hexFF.srcLen.toNat = 2 * hexFF.dstLen.toNat ∧
      disjointRegions hexFF.srcAddr hexFF.srcLen.toNat hexFF.dstAddr hexFF.dstLen.toNat ∧
      ∀ k < hexFF.srcLen.toNat, valid (readByte hexFF.mem (byteAddr hexFF.srcAddr k)) = true :=
  ⟨by decide, by decide, disjoint_hexFF, by decide⟩
theorem witness_DecStopsAtTheFirstInvalidCharacter :
    Memory.wf hex66ag.mem = true ∧ hex66ag.srcLen.toNat = 2 * hex66ag.dstLen.toNat ∧
      disjointRegions hex66ag.srcAddr hex66ag.srcLen.toNat hex66ag.dstAddr hex66ag.dstLen.toNat ∧
      3 < hex66ag.srcLen.toNat ∧ valid (readByte hex66ag.mem (byteAddr hex66ag.srcAddr 3)) = false ∧
      ∀ j < 3, valid (readByte hex66ag.mem (byteAddr hex66ag.srcAddr j)) = true :=
  ⟨by decide, by decide, disjoint_hex66ag, by decide, by decide, by decide⟩
theorem witness_DecInPlaceDecodesTheOriginalText :
    let s := { hexFF with dstAddr := 0x1000 }
    Memory.wf s.mem = true ∧ s.srcLen.toNat = 2 * s.dstLen.toNat ∧ s.dstAddr = s.srcAddr ∧
      ∀ k < s.srcLen.toNat, valid (readByte s.mem (byteAddr s.srcAddr k)) = true :=
  ⟨by decide, by decide, rfl, by decide⟩
theorem witness_DecChangesNothingElse :
    (∃ t, exec .dec hex66ag = .next t ∧ hex66ag.srcLen.toNat = 2 * hex66ag.dstLen.toNat) ∧
      ∃ t, exec .dec kiwi = .next t ∧ kiwi.srcLen.toNat ≠ 2 * kiwi.dstLen.toNat :=
  ⟨⟨_, rfl, by decide⟩, _, rfl, by decide⟩
theorem witness_DecodingAnEncodingGivesItBack :
    Memory.wf kiwi.mem = true ∧ (4 : Word).toNat < 2 ^ 31 ∧ (8 : Word).toNat = 2 * (4 : Word).toNat ∧
      disjointRegions 0x1000 (4 : Word).toNat 0x2000 (8 : Word).toNat ∧
      disjointRegions 0x3000 (4 : Word).toNat 0x2000 (8 : Word).toNat ∧
      disjointRegions 0x1000 (4 : Word).toNat 0x3000 (4 : Word).toNat ∧
      kiwi.srcAddr = 0x1000 ∧ kiwi.srcLen = 4 ∧ kiwi.dstAddr = 0x2000 ∧ kiwi.dstLen = 8 := by
  unfold disjointRegions
  decide
theorem witness_DecodingIgnoresLetterCase :
    let s := hexFF
    let s' := st (cells 0x1000 [0x46, 0x66]) 0x1000 2 0x2000 1
    Memory.wf s.mem = true ∧ Memory.wf s'.mem = true ∧ s.srcLen.toNat = 2 * s.dstLen.toNat ∧ s'.srcLen = s.srcLen ∧
      s'.dstLen = s.dstLen ∧ disjointRegions s.srcAddr s.srcLen.toNat s.dstAddr s.dstLen.toNat ∧
      disjointRegions s'.srcAddr s'.srcLen.toNat s'.dstAddr s'.dstLen.toNat ∧
      ∀ k < s.srcLen.toNat, valid (readByte s.mem (byteAddr s.srcAddr k)) = true ∧
        sameButCase (readByte s.mem (byteAddr s.srcAddr k)) (readByte s'.mem (byteAddr s'.srcAddr k)) := by
  unfold disjointRegions sameButCase
  decide +kernel
theorem witness_EncodingIsTotalDecodingIsPartial :
    Memory.wf hex66ag.mem = true ∧
      disjointRegions hex66ag.srcAddr hex66ag.srcLen.toNat hex66ag.dstAddr hex66ag.dstLen.toNat :=
  ⟨by decide, disjoint_hex66ag⟩

/-! ## The iterator and the ROMs -/

theorem witness_InextEmitsTheNextCharacter :
    ({ State.reset with pend := true, pchar := 0x35 } : State).pend = true ∧
      (({ State.reset with iterRem := 1, icase := true } : State).pend = false ∧
        ({ State.reset with iterRem := 1, icase := true } : State).iterRem ≠ 0) ∧
      (State.reset.pend = false ∧ State.reset.iterRem = 0) := by decide
theorem witness_IterationYieldsTheEncoding :
    (∃ t, exec (if true then .iloadU else .iloadL) kiwi = .next t) ∧
      (∃ t, exec (if false then .iloadU else .iloadL) kiwi = .next t) ∧
      7 < 2 * kiwi.srcLen.toNat ∧ 2 * kiwi.srcLen.toNat ≤ 8 := ⟨⟨_, rfl⟩, ⟨_, rfl⟩, by decide, by decide⟩
theorem witness_TableReadsReturnTheEntry : (0x0F : Byte).toNat < 16 ∧ 16 ≤ (0x10 : Byte).toNat := by decide
theorem witness_EncodeRomsHoldTheDigits : (9 : Nibble).toNat ≤ 9 ∧ 10 ≤ (10 : Nibble).toNat := by decide
theorem witness_DecodeRomHoldsTheValues :
    ∀ c ∈ ([0x2F, 0x3A, 0x40, 0x47, 0x60, 0x67, 0xFF] : List Byte), ¬ (0x30 ≤ c.toNat ∧ c.toNat ≤ 0x39) ∧
      ¬ (0x41 ≤ c.toNat ∧ c.toNat ≤ 0x46) ∧ ¬ (0x61 ≤ c.toNat ∧ c.toNat ≤ 0x66) := by decide
theorem witness_DecodeRomInvertsTheEncodeRoms : valid 0x66 = true := by decide

/-! ## Pseudo-instructions -/

theorem witness_EncodePseudoInstructionEncodes (upper : Bool) :
    ∃ acts, (if upper then pseudoEncodeUpper 0x1000 4 0x2000 else pseudoEncode 0x1000 4 0x2000) = some acts ∧
      Inv (pending (acts ++ []) kiwi) ∧ (pending (acts ++ []) kiwi).busy = false ∧
      (pending (acts ++ []) kiwi).resetAsserted = false ∧ (pending (acts ++ []) kiwi).env.todo = acts ++ [] ∧
      disjointRegions 0x1000 4 0x2000 (2 * 4) := by
  cases upper <;> exact ⟨_, rfl, inv_kiwi _, rfl, rfl, rfl, disjoint_kiwi⟩
theorem witness_DecodePseudoInstructionDecodes :
    let s := pending (pseudoDecode 0x1000 4 0x2000 ++ []) hex66ag
    Inv s ∧ s.busy = false ∧ s.resetAsserted = false ∧ s.env.todo = pseudoDecode 0x1000 4 0x2000 ++ [] ∧
      disjointRegions 0x1000 (4 : Word).toNat 0x2000 ((4 : Word).toNat / 2) ∧
      valid (readByte s.mem (byteAddr 0x1000 3)) = false ∧
      ∀ h < 3, valid (readByte s.mem (byteAddr 0x1000 h)) = true :=
  ⟨inv_pending (inv_st (by decide) _ _ _ _) rfl _, rfl, rfl, rfl, disjoint_hex66ag, by decide, by decide⟩
theorem witness_DecodePseudoInstructionDecodes_odd :
    (3 : Word).toNat % 2 = 1 ∧ (1 : Word).toNat % 2 = 1 ∧ disjointRegions 0x1000 (3 : Word).toNat 0x2000 ((3 : Word).toNat / 2) := by
  unfold disjointRegions
  decide
theorem witness_DecodePseudoInstructionDecodes_valid :
    let s := pending (pseudoDecode 0x1000 2 0x2000 ++ []) hexFF
    Inv s ∧ s.env.todo = pseudoDecode 0x1000 2 0x2000 ++ [] ∧
      disjointRegions 0x1000 (2 : Word).toNat 0x2000 ((2 : Word).toNat / 2) ∧
      ∀ j < (2 : Word).toNat, valid (readByte s.mem (byteAddr 0x1000 j)) = true :=
  ⟨inv_pending (inv_st (by decide) _ _ _ _) rfl _, rfl, disjoint_hexFF, by decide⟩
theorem witness_DecodeNEnforcesTheContainerLength (capacity : Word) :
    let s := pending (pseudoDecodeN 0x1000 4 0x2000 capacity ++ []) hex66ag
    Inv s ∧ s.busy = false ∧ s.resetAsserted = false ∧ s.env.todo = pseudoDecodeN 0x1000 4 0x2000 capacity ++ [] ∧
      (4 : Word).toNat / 2 = (2 : Word).toNat ∧ (4 : Word).toNat / 2 ≠ (1 : Word).toNat ∧ (3 : Word).toNat % 2 = 1 :=
  ⟨inv_pending (inv_st (by decide) _ _ _ _) rfl _, rfl, rfl, rfl, by decide, by decide, by decide⟩
theorem witness_EncodeIterCollectsTheEncoding :
    let s := pending (pseudoEncodeIter true 0x1000 4 0x2000 ++ []) kiwi
    Inv s ∧ s.busy = false ∧ s.resetAsserted = false ∧ s.env.todo = pseudoEncodeIter true 0x1000 4 0x2000 ++ [] ∧
      disjointRegions 0x1000 (4 : Word).toNat 0x2000 (2 * (4 : Word).toNat) :=
  ⟨inv_kiwi _, rfl, rfl, rfl, disjoint_kiwi⟩

end Sys2Proof.Tests
end

section
/-! Scope (00_scope.md section 5): no step faults (R12), and every accepted command terminates (R13). -/

namespace Sys2Proof.Machine

/-! ## The running command -/

theorem instr?_eq_some {d : Decoded} {i : Instr} : d.instr? = some i ↔ d = .instr i := by
  cases d <;> simp [Decoded.instr?]

theorem running_eq_some {s : State} {i : Instr} :
    running s = some i ↔ s.busy = true ∧ ∃ v, s.latch = some v ∧ decode v = .instr i := by
  simp [running, Option.bind_eq_some_iff, instr?_eq_some]

theorem busy_of_running {s : State} {i : Instr} (h : running s = some i) : s.busy = true := (running_eq_some.1 h).1

theorem completes_iff {s : State} {i : Instr} : completes s i ↔ running s = some i ∧ s.env.turns = 0 := by
  rw [completes, running_eq_some, and_right_comm, and_assoc]

/-- While BUSY = 1 an accepted command is latched (10_state.md R48, 30_encoding.md R85). -/
theorem Inv.exists_running {s : State} (h : Inv s) (hb : s.busy = true) : ∃ i, running s = some i := by
  obtain ⟨v, hv⟩ := Option.isSome_iff_exists.1 (h.latch_busy.trans hb)
  obtain ⟨i, hi⟩ := h.latch_accepted v hv
  exact ⟨i, running_eq_some.2 ⟨hb, v, hv, hi⟩⟩

/-- ENGINE's turn is the completion of the latched command (30_encoding.md R86). -/
theorem step_completes {s : State} {i : Instr} (h : completes s i) : step s = exec i s := by
  obtain ⟨hb, ht, v, hv, hi⟩ := h
  simp only [step_engine hb ht, engineTurn, hv, hi]

/-! ## No fault -/

theorem hostAct_ne_fault (act : HostAction) (s : State) (f : Fault) : hostAct act s ≠ .fault f := by
  cases act with
  | memWrite a b => simp only [hostAct, hostMemWrite]; split <;> nofun
  | memRead a => simp only [hostAct, hostMemRead]; split <;> nofun
  | _ => nofun

/-- Only ENGINE's turn could fault, and it does not when a command is latched. -/
theorem step_ne_fault {s : State} (h : s.busy = true → ∃ i, running s = some i) (f : Fault) : step s ≠ .fault f := by
  rcases engine_or_host s with ⟨hb, ht⟩ | hm
  · obtain ⟨i, hi⟩ := h hb
    obtain ⟨t, hexec⟩ := exec_answers_next i s
    rw [step_completes (completes_iff.2 ⟨hi, ht⟩), hexec]
    nofun
  · cases hs : s.env.todo with
    | nil => rw [step_hostIdle hm hs]; nofun
    | cons act rest => rw [step_hostTakes ⟨hm, hs⟩]; exact hostAct_ne_fault _ _ f

/-- Settles O12: while BUSY = 1 the invariant has an accepted command in the latch, so ENGINE's turn completes it. -/
theorem noStepFaults : Obligations.NoStepFaults := fun _ f hInv => step_ne_fault hInv.exists_running f

/-! ## The host's turns while a command runs -/

@[simp] theorem busReadDraws_turns (slot : BitVec 4) (s : State) : (busReadDraws slot s).env.turns = s.env.turns := by
  unfold busReadDraws
  split <;> rfl

@[simp] theorem hostBusRead_turns (off : BitVec 6) (s : State) : (hostBusRead off s).env.turns = s.env.turns := by
  unfold hostBusRead
  split <;> simp [observe]

@[simp] theorem hostPoll_turns (s : State) : (hostPoll s).env.turns = s.env.turns := by
  unfold hostPoll
  split <;> simp [pushTodo]

@[simp] theorem hostIterRead_turns (dst : Addr) (s : State) : (hostIterRead dst s).env.turns = s.env.turns := by
  unfold hostIterRead
  split
  · split <;> simp [pushTodo]
  · simp [pushTodo]

/-- "Dropped while BUSY = 1" (30_encoding.md R81). -/
theorem hostBusWrite_busy {s : State} (hb : s.busy = true) (off : BitVec 6) (v : Word) : hostBusWrite off v s = s := by
  simp [hostBusWrite, busWrite, hb]

/-- While BUSY = 1 no action takes a turn of its own: acceptance alone sets LATENCY, and nothing is accepted (log 3). -/
theorem hostAct_turns {act : HostAction} {s t : State} (h : hostAct act s = .next t) (hb : s.busy = true) :
    t.env.turns = s.env.turns := by
  cases act with
  | busWrite off v => cases h; rw [hostBusWrite_busy hb]
  | busRead off => cases h; exact hostBusRead_turns _ _
  | memWrite a b => simp only [hostAct, hostMemWrite] at h; split_ifs at h; cases h; rfl
  | memRead a => simp only [hostAct, hostMemRead] at h; split_ifs at h; cases h; rfl
  | poll => cases h; exact hostPoll_turns _
  | iterLoop dst => cases h; rw [hostIterLoop, hostBusWrite_busy hb]; rfl
  | iterRead dst => cases h; exact hostIterRead_turns _ _
  | resetAssert => cases h; rfl
  | resetRelease => cases h; rfl

/-- While BUSY = 1 an action either abandons the command, as reset does, or leaves it running (20_memory.md R68). -/
theorem hostAct_running {act : HostAction} {s t : State} (h : hostAct act s = .next t) (hb : s.busy = true) :
    t.busy = false ∨ running t = running s := by
  rcases hostAct_next h with ⟨off, v, -, rfl⟩ | ⟨dst, -, rfl⟩ | ⟨a, b, -, -, rfl⟩ | ⟨-, rfl⟩ | ⟨-, rfl⟩ | ht
  · exact .inr (by rw [hostBusWrite_busy hb])
  · exact .inr (by rw [hostIterLoop, hostBusWrite_busy hb]; rfl)
  · exact .inr rfl
  · exact .inl rfl
  · exact .inr rfl
  · exact .inr (by rw [ht]; rfl)

theorem envAfter_turns_busy {s : State} (hb : s.busy = true) (rest : List HostAction) :
    (envAfter s rest).turns = s.env.turns - 1 := by
  rw [envAfter, if_pos hb]

/-- A host turn while a command runs: reset abandons it, or it stays with one turn fewer to wait (log 3). -/
theorem step_running {s t : State} {i : Instr} {n : Nat} (hi : running s = some i) (hn : s.env.turns = n + 1)
    (h : step s = .next t) : t.busy = false ∨ (running t = some i ∧ t.env.turns = n) := by
  have hb := busy_of_running hi
  have hafter : ∀ rest, (envAfter s rest).turns = n := fun rest => by rw [envAfter_turns_busy hb, hn]; rfl
  rcases step_next h with ⟨j, hc, -⟩ | ⟨-, -, rfl⟩ | ⟨act, rest, -, hact⟩
  · obtain ⟨-, h0⟩ := completes_iff.1 hc
    omega
  · exact .inr ⟨hi, hafter _⟩
  · have hturns : t.env.turns = n := (hostAct_turns hact hb).trans (hafter rest)
    exact (hostAct_running hact hb).imp_right fun hr => ⟨hr.trans hi, hturns⟩

/-! ## Termination -/

theorem run_succ_of_next {M : Host.Core} {s t : M.State} (h : M.step s = .next t) (k : Nat) :
    M.run (k + 1) s = M.run k t := by
  simp only [Host.Core.run, h]

theorem run_succ_of_refused {M : Host.Core} {s : M.State} {r : M.Refusal} (h : M.step s = .refused r) (k : Nat) :
    M.run (k + 1) s = .refused r := by
  simp only [Host.Core.run, h]

/-- Within `n` steps BUSY falls, or the host breaks its duty (20_memory.md R70). -/
def endsWithin (n : Nat) (s : State) : Prop :=
  ∃ k ≤ n, (∃ t, core.run k s = .next t ∧ t.busy = false) ∨ ∃ r, core.run k s = .refused r

theorem endsWithin_of_idle {s : State} (hb : s.busy = false) (n : Nat) : endsWithin n s :=
  ⟨0, n.zero_le, .inl ⟨s, rfl, hb⟩⟩

theorem endsWithin_succ_of_next {s t : State} {n : Nat} (h : step s = .next t) (ht : endsWithin n t) :
    endsWithin (n + 1) s := by
  obtain ⟨k, hk, hend⟩ := ht
  have hrun : core.run (k + 1) s = core.run k t := run_succ_of_next h k
  exact ⟨k + 1, by omega, by rwa [hrun]⟩

/-- A running command ends after its host turns and one step, by induction on the host turns left (00_scope.md R13). -/
theorem endsWithin_of_running {s : State} {i : Instr} {n : Nat} (hi : running s = some i) (hn : s.env.turns = n) :
    endsWithin (n + 1) s := by
  induction n generalizing s with
  | zero =>
    obtain ⟨t, hexec⟩ := exec_answers_next i s
    have hstep : step s = .next t := (step_completes (completes_iff.2 ⟨hi, hn⟩)).trans hexec
    obtain ⟨hidle, -⟩ := exec_completed hexec
    exact endsWithin_succ_of_next hstep (endsWithin_of_idle hidle _)
  | succ n ih =>
    cases hstep : step s with
    | next t =>
      refine endsWithin_succ_of_next hstep ?_
      rcases step_running hi hn hstep with hidle | ⟨hi', hn'⟩
      · exact endsWithin_of_idle hidle _
      · exact ih hi' hn'
    | fault f => exact absurd hstep (step_ne_fault (fun _ => ⟨i, hi⟩) f)
    | refused r => exact ⟨1, by omega, .inr ⟨r, run_succ_of_refused (M := core) hstep 0⟩⟩

/-- Settles O22: the invariant has a command running, and each host turn leaves it one fewer to wait. -/
theorem everyAcceptedCommandTerminates : Obligations.EveryAcceptedCommandTerminates := by
  intro s hInv hb
  obtain ⟨i, hi⟩ := hInv.exists_running hb
  exact endsWithin_of_running hi rfl

end Sys2Proof.Machine
end

section
/-! State (10_state.md section 4): the reset state meets the invariant, and every step keeps it (R51). -/

namespace Sys2Proof.Machine

variable {s t : State}

/-! ## What the invariant does not read -/

theorem Inv.with_env (h : Inv s) (e : Env) : Inv { s with env := e } :=
  { h with in_reset := fun hr => (congrArg (fun u : State => { u with env := e }) (h.in_reset hr) :) }

theorem Inv.with_mem (h : Inv s) {m : Memory} (hm : Memory.wf m = true) : Inv { s with mem := m } :=
  { h with
    mem_wf := hm
    in_reset := fun hr => (congrArg (fun u : State => { u with mem := m }) (h.in_reset hr) :) }

/-- While a command runs the block is out of reset: in reset BUSY has its reset value (R220). -/
theorem Inv.notReset_of_busy (h : Inv s) (hb : s.busy = true) : s.resetAsserted = false := by
  by_contra hr
  have hidle : s.busy = false := congrArg State.busy (h.in_reset (by simpa using hr))
  nomatch hb.symm.trans hidle

theorem Inv.with_operands (h : Inv s) (hr : s.resetAsserted = false) (src n dst m : Word) :
    Inv { s with srcAddr := src, srcLen := n, dstAddr := dst, dstLen := m } :=
  { h with in_reset := fun hr' => nomatch hr.symm.trans hr' }

/-! ## Reset -/

/-- A block at its reset values meets the invariant, whatever memory, the reset input and the outside world are (R221). -/
theorem inv_resetValues {m : Memory} (hm : Memory.wf m = true) (r : Bool) (e : Env) :
    Inv { State.reset with mem := m, resetAsserted := r, env := e } where
  latch_busy := rfl
  latch_accepted := nofun
  busy_flags := nofun
  badcmd_done := nofun
  pchar_idle _ := rfl
  pchar_digit := nofun
  err_record _ := ⟨rfl, rfl⟩
  err_char := nofun
  result_valid _ := rfl
  mem_wf := hm
  in_reset _ := rfl

/-- Settles O15: reset is the reset values over the empty memory list. -/
theorem resetMeetsTheInvariant : Obligations.ResetMeetsTheInvariant := inv_resetValues rfl false Env.initial

theorem Inv.after_assertReset (h : Inv s) : Inv (assertReset s) := inv_resetValues (wf_abandonWriteSet h.mem_wf) _ _

theorem Inv.after_releaseReset (h : Inv s) : Inv (releaseReset s) := { h with in_reset := nofun }

/-! ## Issue and bus writes -/

theorem Inv.after_reject (h : Inv s) (hb : s.busy = false) (hr : s.resetAsserted = false) : Inv (reject s) :=
  { h with
    busy_flags := fun hb' => nomatch hb.symm.trans hb'
    badcmd_done := fun _ => rfl
    in_reset := fun hr' => nomatch hr.symm.trans hr' }

/-- Only a word that decodes is latched, and its flags are cleared with it (30_encoding.md R85). -/
theorem Inv.after_accept (h : Inv s) (hr : s.resetAsserted = false) {v : Word} {i : Instr} (hd : decode v = .instr i) :
    Inv (accept v s) :=
  { h with
    latch_busy := rfl
    latch_accepted := fun w hw => ⟨i, by cases hw; exact hd⟩
    busy_flags := fun _ => ⟨rfl, rfl⟩
    badcmd_done := nofun
    in_reset := fun hr' => nomatch hr.symm.trans hr' }

theorem Inv.after_issue (h : Inv s) (hb : s.busy = false) (hr : s.resetAsserted = false) (v : Word) : Inv (issue v s) := by
  rcases issue_cases v s with ⟨i, hd, heq⟩ | heq
  · rw [heq]; exact h.after_accept hr hd
  · rw [heq]; exact h.after_reject hb hr

theorem Inv.after_busWrite (h : Inv s) (hr : s.resetAsserted = false) (slot : BitVec 4) (v : Word) :
    Inv (busWrite slot v s) := by
  rcases busWrite_cases slot v s with heq | ⟨hb, -, heq⟩ | ⟨-, -, heq⟩ | ⟨-, -, heq⟩ |
    ⟨-, -, heq⟩ | ⟨-, -, heq⟩ <;> rw [heq]
  · exact h
  · exact h.after_issue hb hr v
  · exact h.with_operands hr v s.srcLen s.dstAddr s.dstLen
  · exact h.with_operands hr s.srcAddr v s.dstAddr s.dstLen
  · exact h.with_operands hr s.srcAddr s.srcLen v s.dstLen
  · exact h.with_operands hr s.srcAddr s.srcLen s.dstAddr v

theorem Inv.after_hostBusWrite (h : Inv s) (off : BitVec 6) (v : Word) : Inv (hostBusWrite off v s) := by
  unfold hostBusWrite
  split
  next => exact h
  next hr => exact h.after_busWrite (by simpa using hr) _ v

theorem Inv.after_hostAct (h : Inv s) {act : HostAction} (hact : hostAct act s = .next t) : Inv t := by
  rcases hostAct_next hact with ⟨off, v, -, rfl⟩ | ⟨dst, -, rfl⟩ | ⟨a, b, -, -, rfl⟩ | ⟨-, rfl⟩ | ⟨-, rfl⟩ | heq
  · exact h.after_hostBusWrite off v
  · exact (h.after_hostBusWrite _ _).with_env _
  · exact h.with_mem (wf_writeByte h.mem_wf a b)
  · exact h.after_assertReset
  · exact h.after_releaseReset
  · rw [heq]; exact h.with_env _

/-! ## The ends of the commands -/

theorem Inv.after_setResult (h : Inv s) (hr : s.resetAsserted = false) (b : Bool) (v : Byte) (hv : b = false → v = 0) :
    Inv (setResult b v s) :=
  { h with
    result_valid := hv
    in_reset := fun hr' => nomatch hr.symm.trans hr' }

/-- A new iterator keeps the invariant when its PCHAR is as R44 and R163 say. -/
theorem Inv.with_iterator (h : Inv s) (hr : s.resetAsserted = false) (ia ir : Word) (p c : Bool) (pc : Byte)
    (hidle : p = false → pc = 0) (hdigit : p = true → ∃ n, pc = romOfCase c n) :
    Inv { s with iterAddr := ia, iterRem := ir, pend := p, icase := c, pchar := pc } :=
  { h with
    pchar_idle := hidle
    pchar_digit := hdigit
    in_reset := fun hr' => nomatch hr.symm.trans hr' }

/-- The error record is 0 unless a byte is recorded (60_exceptions.md R192). -/
theorem CmdResult.char_index_of_code_ne {r : CmdResult} (h : r.code ≠ 1) : r.char = 0 ∧ r.index = 0 := by
  cases r with
  | invalidHexCharacter c k => exact absurd rfl h
  | _ => exact ⟨rfl, rfl⟩

/-- The end of a completion step keeps the invariant when a recorded byte is no hex digit (10_state.md R39). -/
theorem Inv.after_finish (h : Inv s) (hr : s.resetAsserted = false) {r : CmdResult} (hf : finish r s = .next t)
    (hchar : r.code = 1 → valid r.char = false) : Inv t := by
  cases hf
  exact { h with
    latch_busy := rfl
    latch_accepted := nofun
    busy_flags := nofun
    badcmd_done := fun _ => rfl
    err_record := CmdResult.char_index_of_code_ne
    err_char := hchar
    in_reset := fun hr' => nomatch hr.symm.trans hr' }

theorem Inv.after_encodeSlice (h : Inv s) (hr : s.resetAsserted = false) {rom : Nibble → Byte}
    (he : encodeSlice rom s = .next t) : Inv t := by
  unfold encodeSlice at he
  split_ifs at he
  · exact (h.with_mem (wf_encLoop _ _ _ _ _ h.mem_wf)).after_finish hr he nofun
  · exact h.after_finish hr he nofun

theorem decLoop_char (src dst : Addr) (k i : Nat) (m : Memory) (h : (decLoop src dst k i m).2.code = 1) :
    valid (decLoop src dst k i m).2.char = false := by
  rcases decLoop_result src dst k i m with hok | ⟨c, x, hraise, hc⟩
  · rw [hok] at h
    exact absurd h (by decide)
  · rwa [hraise]

theorem Inv.after_execDec (h : Inv s) (hr : s.resetAsserted = false) (he : execDec s = .next t) : Inv t := by
  unfold execDec at he
  split_ifs at he
  · exact h.after_finish hr he nofun
  · exact (h.with_mem (wf_decLoop _ _ _ _ h.mem_wf)).after_finish hr he (decLoop_char _ _ _ _ _)
  · exact h.after_finish hr he nofun

theorem Inv.after_loadIterator (h : Inv s) (hr : s.resetAsserted = false) {upper : Bool}
    (he : loadIterator upper s = .next t) : Inv t := by
  have hi := h.with_iterator hr s.srcAddr s.srcLen false upper 0 (fun _ => rfl) nofun
  exact (hi.after_setResult hr false 0 fun _ => rfl).after_finish hr he nofun

theorem Inv.after_execInext (h : Inv s) (hr : s.resetAsserted = false) (he : execInext s = .next t) : Inv t := by
  unfold execInext at he
  split_ifs at he
  · have hi := h.with_iterator hr s.iterAddr s.iterRem false s.icase 0 (fun _ => rfl) nofun
    exact (hi.after_setResult hr true s.pchar nofun).after_finish hr he nofun
  · have hi := h.with_iterator hr (s.iterAddr + 1) (s.iterRem - 1) true s.icase
      (romOfCase s.icase (loNibble (readByte s.mem s.iterAddr))) nofun fun _ => ⟨_, rfl⟩
    exact (hi.after_setResult hr true _ nofun).after_finish hr he nofun
  · exact (h.after_setResult hr false 0 fun _ => rfl).after_finish hr he nofun

theorem Inv.after_readEntry (h : Inv s) (hr : s.resetAsserted = false) {entry : Byte}
    (he : readEntry entry s = .next t) : Inv t :=
  (h.after_setResult hr true entry nofun).after_finish hr he nofun

theorem Inv.after_exec (h : Inv s) (hr : s.resetAsserted = false) {i : Instr} (he : exec i s = .next t) : Inv t := by
  cases i with
  | encL | encU => exact h.after_encodeSlice hr he
  | dec => exact h.after_execDec hr he
  | iloadL | iloadU => exact h.after_loadIterator hr he
  | inext => exact h.after_execInext hr he
  | tblrdEL idx | tblrdEU idx | tblrdD idx => exact h.after_readEntry hr he

/-- Settles O16: a step is a completion, an idle turn or one action of the outside world, and each keeps the invariant. -/
theorem everyStepKeepsTheInvariant : Obligations.EveryStepKeepsTheInvariant := by
  intro s t h hstep
  rcases step_next hstep with ⟨i, ⟨hb, -⟩, hexec⟩ | ⟨-, -, rfl⟩ | ⟨act, rest, -, hact⟩
  · exact h.after_exec (h.notReset_of_busy hb) hexec
  · exact h.with_env _
  · exact (h.with_env _).after_hostAct hact

end Sys2Proof.Machine
end

section
/-! State (10_state.md section 2): what a step can do to the operand registers (R35–R38) and to RESULT (R41). -/

namespace Sys2Proof.Machine

variable {s t : State}

/-! ## The registers only the engine writes -/

/-- ITER_*, RESULT and the error record are the same: every register that no host access can write (R39–R44). -/
def sameEngineRegisters (s t : State) : Prop := sameIterator s t ∧ sameResult s t ∧ sameErrorRecord s t

theorem sameEngineRegisters.refl (s : State) : sameEngineRegisters s s :=
  ⟨⟨rfl, rfl, rfl, rfl, rfl⟩, ⟨rfl, rfl⟩, ⟨rfl, rfl, rfl⟩⟩

/-- Issue writes LATCH and the flags only (30_encoding.md R84, R85). -/
theorem issue_shape (v : Word) (s : State) : ∃ l b d bc e,
    issue v s = { s with latch := l, busy := b, done := d, badcmd := bc, env := e } := by
  rcases issue_cases v s with ⟨i, -, h⟩ | h <;> exact ⟨_, _, _, _, _, h⟩

theorem busWrite_sameEngineRegisters (slot : BitVec 4) (v : Word) (s : State) :
    sameEngineRegisters s (busWrite slot v s) := by
  rcases busWrite_cases slot v s with h | ⟨-, -, h⟩ | ⟨-, -, h⟩ | ⟨-, -, h⟩ | ⟨-, -, h⟩ | ⟨-, -, h⟩
  case inr.inl =>
    obtain ⟨l, b, d, bc, e, hissue⟩ := issue_shape v s
    rw [h, hissue]
    exact .refl s
  all_goals rw [h]; exact .refl s

theorem hostBusWrite_sameEngineRegisters (off : BitVec 6) (v : Word) (s : State) :
    sameEngineRegisters s (hostBusWrite off v s) := by
  unfold hostBusWrite
  split
  · exact .refl s
  · exact busWrite_sameEngineRegisters _ _ _

/-- Of the outside world's actions only the assertion of reset reaches those registers. -/
theorem hostAct_sameEngineRegisters {act : HostAction} (h : hostAct act s = .next t) (hact : act ≠ .resetAssert) :
    sameEngineRegisters s t := by
  rcases hostAct_next h with ⟨off, v, -, rfl⟩ | ⟨dst, -, rfl⟩ | ⟨a, b, -, -, rfl⟩ | ⟨hreset, -⟩ | ⟨-, rfl⟩ | heq
  · exact hostBusWrite_sameEngineRegisters off v s
  · exact hostBusWrite_sameEngineRegisters _ _ s
  · exact .refl s
  · exact absurd hreset hact
  · exact .refl s
  · rw [heq]; exact .refl s

/-- What a step does to the registers only the engine writes: a completion or reset may change them, nothing else does. -/
theorem step_engineRegisters (h : step s = .next t) :
    (∃ i, completes s i ∧ exec i s = .next t) ∨ (∃ rest, hostTakes s .resetAssert rest) ∨ sameEngineRegisters s t := by
  rcases step_next h with hexec | ⟨-, -, rfl⟩ | ⟨act, rest, htakes, hact⟩
  · exact .inl hexec
  · exact .inr (.inr (.refl s))
  · by_cases hreset : act = .resetAssert
    · exact .inr (.inl ⟨rest, hreset ▸ htakes⟩)
    · exact .inr (.inr (hostAct_sameEngineRegisters (s := { s with env := envAfter s rest }) hact hreset))

/-! ## RESULT -/

/-- ENC.x and DEC "leave it unchanged" (10_state.md R41). -/
theorem encodeSlice_sameResult {rom : Nibble → Byte} (h : encodeSlice rom s = .next t) : sameResult s t := by
  unfold encodeSlice at h
  split_ifs at h <;> cases h <;> exact ⟨rfl, rfl⟩

theorem execDec_sameResult (h : execDec s = .next t) : sameResult s t := by
  unfold execDec at h
  split_ifs at h <;> cases h <;> exact ⟨rfl, rfl⟩

/-- Settles O19: a step that changes RESULT is reset or a completion, and ENC.x and DEC leave RESULT. -/
theorem resultChangesOnlyByItsWriters : Obligations.ResultChangesOnlyByItsWriters := by
  intro s t hstep hchanged
  rcases step_engineRegisters hstep with ⟨i, hcompletes, hexec⟩ | hreset | ⟨-, hsame, -⟩
  · cases i with
    | encL | encU => exact absurd (encodeSlice_sameResult hexec) hchanged
    | dec => exact absurd (execDec_sameResult hexec) hchanged
    | inext => exact .inl hcompletes
    | iloadL => exact .inr (.inl hcompletes)
    | iloadU => exact .inr (.inr (.inl hcompletes))
    | tblrdEL idx => exact .inr (.inr (.inr (.inl ⟨idx, .inl hcompletes⟩)))
    | tblrdEU idx => exact .inr (.inr (.inr (.inl ⟨idx, .inr (.inl hcompletes)⟩)))
    | tblrdD idx => exact .inr (.inr (.inr (.inl ⟨idx, .inr (.inr hcompletes)⟩)))
  · exact .inr (.inr (.inr (.inr hreset)))
  · exact absurd hsame hchanged

/-! ## The operand registers -/

theorem sameOperands.refl (s : State) : sameOperands s s := ⟨rfl, rfl, rfl, rfl⟩

/-- The operand registers after a write of `v` to slot `n` that is not dropped (30_encoding.md R81). -/
def writesOperand (n : Nat) (v : Word) (s t : State) : Prop :=
  t.srcAddr = (if n = 2 then v else s.srcAddr) ∧ t.srcLen = (if n = 3 then v else s.srcLen) ∧
  t.dstAddr = (if n = 4 then v else s.dstAddr) ∧ t.dstLen = (if n = 5 then v else s.dstLen)

theorem issue_sameOperands (v : Word) (s : State) : sameOperands s (issue v s) := by
  obtain ⟨l, b, d, bc, e, h⟩ := issue_shape v s
  rw [h]
  exact .refl s

theorem busWrite_writesOperand (hb : s.busy = false) (slot : BitVec 4) (v : Word) :
    writesOperand slot.toNat v s (busWrite slot v s) := by
  obtain ⟨hsa, hsl, hda, hdl⟩ := issue_sameOperands v s
  simp only [busWrite, hb, Bool.false_eq_true, if_false, writesOperand]
  split <;> simp_all

/-- The slot is off[5:2] (30_encoding.md R80). -/
theorem slotOf_toNat (off : BitVec 6) : (slotOf off).toNat = off.toNat / 4 := by
  have := off.isLt
  rw [slotOf, BitVec.extractLsb'_toNat, Nat.shiftRight_eq_div_pow]
  omega

/-- A bus write is dropped or writes its slot's register (30_encoding.md R81, 70_reset_and_hazards.md R220). -/
theorem hostBusWrite_operands (off : BitVec 6) (v : Word) (s : State) :
    sameOperands s (hostBusWrite off v s) ∨
      (s.busy = false ∧ writesOperand (off.toNat / 4) v s (hostBusWrite off v s)) := by
  cases hb : s.busy with
  | true => rw [hostBusWrite_busy hb]; exact .inl (.refl s)
  | false =>
    unfold hostBusWrite
    split
    · exact .inl (.refl s)
    · exact .inr ⟨rfl, slotOf_toNat off ▸ busWrite_writesOperand hb (slotOf off) v⟩

/-- The CMD slot is no operand register, so a write to it keeps them all. -/
theorem hostBusWrite_cmd_sameOperands (v : Word) (s : State) : sameOperands s (hostBusWrite (regOffset .cmd) v s) := by
  rcases hostBusWrite_operands (regOffset .cmd) v s with hsame | ⟨-, hwrites⟩
  · exact hsame
  · exact hwrites

theorem hostAct_operands {act : HostAction} (h : hostAct act s = .next t) (hact : act ≠ .resetAssert) :
    sameOperands s t ∨
      ∃ off v, act = .busWrite off v ∧ s.busy = false ∧ writesOperand (off.toNat / 4) v s t := by
  rcases hostAct_next h with ⟨off, v, hw, rfl⟩ | ⟨dst, -, rfl⟩ | ⟨a, b, -, -, rfl⟩ | ⟨hreset, -⟩ | ⟨-, rfl⟩ | heq
  · exact (hostBusWrite_operands off v s).imp_right fun hwrites => ⟨off, v, hw, hwrites⟩
  · exact .inl (hostBusWrite_cmd_sameOperands _ s)
  · exact .inl (.refl s)
  · exact absurd hreset hact
  · exact .inl (.refl s)
  · rw [heq]; exact .inl (.refl s)

/-- What a step out of reset does to the operand registers: nothing, or one undropped bus write. -/
theorem step_operands (h : step s = .next t) (hreset : ∀ rest, ¬ hostTakes s .resetAssert rest) :
    sameOperands s t ∨
      ∃ off v rest, hostTakes s (.busWrite off v) rest ∧ s.busy = false ∧ writesOperand (off.toNat / 4) v s t := by
  rcases step_next h with ⟨i, -, hexec⟩ | ⟨-, -, rfl⟩ | ⟨act, rest, htakes, hact⟩
  · obtain ⟨-, -, -, hsame, -⟩ := exec_completed hexec
    exact .inl hsame
  · exact .inl (.refl s)
  · have hne : act ≠ .resetAssert := fun he => hreset rest (he ▸ htakes)
    refine (hostAct_operands hact hne).imp_right ?_
    rintro ⟨off, v, rfl, hwrites⟩
    exact ⟨off, v, rest, htakes, hwrites⟩

/-- A register that may have taken a word and did change, took it. -/
theorem took_of_changed {c : Prop} [Decidable c] {x y v : Word} (h : y = if c then v else x) (hne : y ≠ x) :
    c ∧ y = v := by
  split_ifs at h with hc
  · exact ⟨hc, h⟩
  · exact absurd h hne

/-- Settles O17: a step keeps the operand registers or is a bus write, which changes only its own slot's register. -/
theorem operandRegistersChangeOnlyByHostOrReset : Obligations.OperandRegistersChangeOnlyByHostOrReset := by
  intro s t hstep hreset
  rcases step_operands hstep hreset with ⟨hsa, hsl, hda, hdl⟩ | ⟨off, v, rest, htakes, hb, hsa, hsl, hda, hdl⟩
  · exact ⟨absurd hsa, absurd hsl, absurd hda, absurd hdl⟩
  · exact ⟨fun hne => ⟨hb, off, v, rest, htakes, took_of_changed hsa hne⟩,
      fun hne => ⟨hb, off, v, rest, htakes, took_of_changed hsl hne⟩,
      fun hne => ⟨hb, off, v, rest, htakes, took_of_changed hda hne⟩,
      fun hne => ⟨hb, off, v, rest, htakes, took_of_changed hdl hne⟩⟩

end Sys2Proof.Machine
end

section
/-! State (10_state.md section 1): the lookup ROMs (R21–R27). -/

namespace Sys2Proof.Machine

/-- Settles O51: the sixteen entries of both ROMs, read off their tables. -/
theorem encodeRomsHoldTheDigits : Obligations.EncodeRomsHoldTheDigits := by
  unfold Obligations.EncodeRomsHoldTheDigits
  decide

/-- DEC_ROM, said once in numbers: a digit, a lower-case letter, an upper-case letter, or none of them (R23–R25). -/
theorem decRom_cases (c : Byte) :
    (0x30 ≤ c.toNat ∧ c.toNat ≤ 0x39 ∧ (decRom c).toNat = c.toNat - 0x30) ∨
    (0x61 ≤ c.toNat ∧ c.toNat ≤ 0x66 ∧ (decRom c).toNat = c.toNat - 0x61 + 10) ∨
    (0x41 ≤ c.toNat ∧ c.toNat ≤ 0x46 ∧ (decRom c).toNat = c.toNat - 0x41 + 10) ∨
    (¬ (0x30 ≤ c.toNat ∧ c.toNat ≤ 0x39) ∧ ¬ (0x61 ≤ c.toNat ∧ c.toNat ≤ 0x66) ∧
      ¬ (0x41 ≤ c.toNat ∧ c.toNat ≤ 0x46) ∧ (decRom c).toNat = 0xFF) := by
  unfold decRom
  split_ifs with hdigit hlower hupper
  · bv_omega
  · bv_omega
  · bv_omega
  · simp only [BitVec.le_def] at hdigit hlower hupper
    exact .inr (.inr (.inr ⟨hdigit, hlower, hupper, rfl⟩))

/-- Settles O52: each index is in one of the four cases of `decRom_cases`. -/
theorem decodeRomHoldsTheValues : Obligations.DecodeRomHoldsTheValues := by
  refine ⟨fun d hd => ?_, fun k hk => ⟨?_, ?_⟩, fun c hdigit hupper hlower => ?_⟩
  · have := decRom_cases (BitVec.ofNat 8 (0x30 + d))
    bv_omega
  · have := decRom_cases (BitVec.ofNat 8 (0x61 + k))
    bv_omega
  · have := decRom_cases (BitVec.ofNat 8 (0x41 + k))
    bv_omega
  · have := decRom_cases c
    bv_omega

theorem valid_iff (c : Byte) : valid c = true ↔ (decRom c).toNat ≠ 0xFF := by
  simp [valid, Config.sentinel, ← BitVec.toNat_inj]

theorem nib_toNat (c : Byte) : (nib c).toNat = (decRom c).toNat % 16 := by
  simp [nib, loNibble]

/-- Settles O53: the entries are below 16 or 0xFF by `decRom_cases`, and the encode ROMs' entries are hex digits (R21, R22). -/
theorem decodeRomInvertsTheEncodeRoms : Obligations.DecodeRomInvertsTheEncodeRoms := by
  refine ⟨fun c => ?_, fun n => ?_, fun c => ?_, fun c hc => ?_⟩
  · have := decRom_cases c
    bv_omega
  · have := encodeRomsHoldTheDigits n
    have := decRom_cases (encLoRom n)
    have := decRom_cases (encUpRom n)
    omega
  · have := decRom_cases c
    rw [valid_iff]
    omega
  · have := decRom_cases c
    rw [valid_iff] at hc
    rw [nib_toNat]
    omega

end Sys2Proof.Machine
end

section
/-! Memory (20_memory.md sections 1 and 2): bytes (R61), and each command's read set and write set (R67). -/

namespace Sys2Proof.Machine

/-- Settles O27: the two laws of a byte write. -/
theorem byteReadsAfterByteWrite : Obligations.ByteReadsAfterByteWrite :=
  fun _ a _ v hm => ⟨readByte_writeByte_self hm a v, readByte_writeByte_ne hm v⟩

/-! ## What a command does to memory -/

variable {i : Instr} {rom : Nibble → Byte} {s t : State}

theorem exec_of_encodesWith (hi : encodesWith i rom) (s : State) : exec i s = encodeSlice rom s := by
  obtain ⟨rfl, rfl⟩ | ⟨rfl, rfl⟩ := hi <;> rfl

theorem readRegion_of_encodesWith (hi : encodesWith i rom) (h : encLengthOk s.srcLen s.dstLen = true) :
    readRegion i s = ⟨s.srcAddr, s.srcLen.toNat⟩ := by
  obtain ⟨rfl, -⟩ | ⟨rfl, -⟩ := hi <;> exact if_pos h

theorem writeRegion_of_encodesWith (hi : encodesWith i rom) (h : encLengthOk s.srcLen s.dstLen = true) :
    writeRegion i s = ⟨s.dstAddr, s.dstLen.toNat⟩ := by
  obtain ⟨rfl, -⟩ | ⟨rfl, -⟩ := hi <;> exact if_pos h

theorem readRegion_dec (hodd : isOddLength s.srcLen = false) (h : decLengthOk s.srcLen s.dstLen = true) :
    readRegion .dec s = ⟨s.srcAddr, s.srcLen.toNat⟩ := if_pos (by rw [hodd, h]; rfl)

theorem writeRegion_dec (hodd : isOddLength s.srcLen = false) (h : decLengthOk s.srcLen s.dstLen = true) :
    writeRegion .dec s = ⟨s.dstAddr, s.dstLen.toNat⟩ := if_pos (by rw [hodd, h]; rfl)

theorem readRegion_inext (hpend : s.pend = false) (hrem : s.iterRem ≠ 0) : readRegion .inext s = ⟨s.iterAddr, 1⟩ :=
  if_pos (by rw [hpend]; simpa using hrem)

/-- What a completion does to memory, said once: ENC.x and DEC with good lengths run their loops, and no other completion writes
(40_slice_codec.md R111, R116). -/
theorem exec_mem (h : exec i s = .next t) :
    t.mem = s.mem ∨
    (∃ rom, encodesWith i rom ∧ encLengthOk s.srcLen s.dstLen = true ∧
      t.mem = encLoop rom s.srcAddr s.dstAddr s.srcLen.toNat 0 s.mem) ∨
    (i = .dec ∧ isOddLength s.srcLen = false ∧ decLengthOk s.srcLen s.dstLen = true ∧
      t.mem = (decLoop s.srcAddr s.dstAddr s.dstLen.toNat 0 s.mem).1) := by
  have enc {rom} (hi : encodesWith i rom) : t.mem = s.mem ∨ ∃ rom, encodesWith i rom ∧
      encLengthOk s.srcLen s.dstLen = true ∧ t.mem = encLoop rom s.srcAddr s.dstAddr s.srcLen.toNat 0 s.mem := by
    rw [exec_of_encodesWith hi, encodeSlice] at h
    split_ifs at h with hlen <;> cases h
    · exact .inr ⟨rom, hi, hlen, rfl⟩
    · exact .inl rfl
  cases i with
  | encL => exact (enc (.inl ⟨rfl, rfl⟩)).imp_right .inl
  | encU => exact (enc (.inr ⟨rfl, rfl⟩)).imp_right .inl
  | dec =>
    simp only [exec, execDec] at h
    split_ifs at h with hodd hlen <;> cases h
    · exact .inl rfl
    · exact .inr (.inr ⟨rfl, by simpa using hodd, hlen, rfl⟩)
    · exact .inl rfl
  | inext =>
    simp only [exec, execInext] at h
    split_ifs at h <;> cases h <;> exact .inl rfl
  | iloadL | iloadU | tblrdEL idx | tblrdEU idx | tblrdD idx => cases h; exact .inl rfl

theorem wf_exec (hm : Memory.wf s.mem = true) (h : exec i s = .next t) : Memory.wf t.mem = true := by
  rcases exec_mem h with heq | ⟨rom, -, -, heq⟩ | ⟨-, -, -, heq⟩ <;> rw [heq]
  · exact hm
  · exact wf_encLoop _ _ _ _ _ hm
  · exact wf_decLoop _ _ _ _ hm

theorem contains_byteAddr (base : Addr) {n : Word} {k : Nat} (hk : k < n.toNat) :
    Region.contains ⟨base, n.toNat⟩ (byteAddr base k) = true :=
  (Region.contains_iff n.isLt.le _).2 ⟨k, hk, rfl⟩

theorem ne_byteAddr_of_not_contains {base a : Addr} {n : Word} (h : Region.contains ⟨base, n.toNat⟩ a = false) {k : Nat}
    (hk : k < n.toNat) : a ≠ byteAddr base k := by
  rintro rfl
  exact Bool.false_ne_true (h.symm.trans (contains_byteAddr base hk))

/-- "No command writes outside its WS" (20_memory.md R67). -/
theorem readByte_exec_outside (hm : Memory.wf s.mem = true) (h : exec i s = .next t) {a : Addr}
    (ha : (writeRegion i s).contains a = false) : readByte t.mem a = readByte s.mem a := by
  rcases exec_mem h with heq | ⟨rom, hi, hlen, heq⟩ | ⟨rfl, hodd, hlen, heq⟩ <;> rw [heq]
  · rw [writeRegion_of_encodesWith hi hlen] at ha
    have hdst := encLengthOk_iff.1 hlen
    exact readByte_encLoop_outside _ _ _ _ _ hm fun j _ hj => ne_byteAddr_of_not_contains ha (by omega)
  · rw [writeRegion_dec hodd hlen] at ha
    exact readByte_decLoop_outside _ _ _ _ hm fun j _ hj => ne_byteAddr_of_not_contains ha (by omega)

/-! ## Memories written alike -/

/-- `m` and `m'` became `n` and `n'` by the same writes: a byte ends the same in both or was written in neither. -/
def writtenAlike (m m' n n' : Memory) : Prop :=
  ∀ a, readByte n' a = readByte n a ∨ (readByte n a = readByte m a ∧ readByte n' a = readByte m' a)

theorem writtenAlike.refl (m m' : Memory) : writtenAlike m m' m m' := fun _ => .inr ⟨rfl, rfl⟩

/-- Where two memories agree they still do after the same writes. -/
theorem writtenAlike.agree {m m' n n' : Memory} (h : writtenAlike m m' n n') {a : Addr}
    (ha : readByte m' a = readByte m a) : readByte n' a = readByte n a := by
  rcases h a with heq | ⟨hn, hn'⟩
  · exact heq
  · rw [hn, hn', ha]

theorem writtenAlike.trans {m m' n n' o o' : Memory} (h₁ : writtenAlike m m' n n') (h₂ : writtenAlike n n' o o') :
    writtenAlike m m' o o' := fun a => by
  rcases h₁ a with heq | ⟨hn, hn'⟩
  · exact .inl (h₂.agree heq)
  · rw [← hn, ← hn']
    exact h₂ a

theorem writtenAlike_writeByte {m m' : Memory} (hm : Memory.wf m = true) (hm' : Memory.wf m' = true) (a : Addr) (v : Byte) :
    writtenAlike m m' (writeByte m a v) (writeByte m' a v) := fun b => by
  by_cases hb : b = a
  · exact .inl (by rw [hb, readByte_writeByte_self hm, readByte_writeByte_self hm'])
  · exact .inr ⟨readByte_writeByte_ne hm v hb, readByte_writeByte_ne hm' v hb⟩

/-- ENC's loop writes alike in two memories that agree on its source bytes, even where it overwrites some of them. -/
theorem writtenAlike_encLoop (rom : Nibble → Byte) (src dst : Addr) (k i : Nat) {m m' : Memory} (hm : Memory.wf m = true)
    (hm' : Memory.wf m' = true)
    (hsrc : ∀ j, i ≤ j → j < i + k → readByte m' (byteAddr src j) = readByte m (byteAddr src j)) :
    writtenAlike m m' (encLoop rom src dst k i m) (encLoop rom src dst k i m') := by
  induction k generalizing i m m' with
  | zero => exact .refl m m'
  | succ k ih =>
    have hwrites (u v : Byte) := (writtenAlike_writeByte hm hm' (byteAddr dst (2 * i)) u).trans
      (writtenAlike_writeByte (wf_writeByte hm _ _) (wf_writeByte hm' _ _) (byteAddr dst (2 * i + 1)) v)
    rw [encLoop, encLoop, hsrc i (by omega) (by omega)]
    exact (hwrites _ _).trans (ih _ (wf_writeByte (wf_writeByte hm _ _) _ _) (wf_writeByte (wf_writeByte hm' _ _) _ _)
      fun j hj hj' => (hwrites _ _).agree (hsrc j (by omega) (by omega)))

/-- DEC's loop ends alike and writes alike in two memories that agree on its source characters. -/
theorem writtenAlike_decLoop (src dst : Addr) (k i : Nat) {m m' : Memory} (hm : Memory.wf m = true)
    (hm' : Memory.wf m' = true)
    (hsrc : ∀ j, 2 * i ≤ j → j < 2 * (i + k) → readByte m' (byteAddr src j) = readByte m (byteAddr src j)) :
    (decLoop src dst k i m').2 = (decLoop src dst k i m).2 ∧
      writtenAlike m m' (decLoop src dst k i m).1 (decLoop src dst k i m').1 := by
  induction k generalizing i m m' with
  | zero => exact ⟨rfl, .refl m m'⟩
  | succ k ih =>
    simp only [decLoop, hsrc (2 * i) (by omega) (by omega), hsrc (2 * i + 1) (by omega) (by omega)]
    split_ifs
    · exact ⟨rfl, .refl m m'⟩
    · exact ⟨rfl, .refl m m'⟩
    · have hwrite (v : Byte) := writtenAlike_writeByte hm hm' (byteAddr dst i) v
      exact (ih _ (wf_writeByte hm _ _) (wf_writeByte hm' _ _)
        fun j hj hj' => (hwrite _).agree (hsrc j (by omega) (by omega))).imp_right (hwrite _).trans

/-! ## A command sees only its read set -/

/-- Two completions leave the same registers and have written alike. -/
def endAlike (s s' t t' : State) : Prop := t' = { t with mem := t'.mem } ∧ writtenAlike s.mem s'.mem t.mem t'.mem

/-- The two memories hold the same bytes in the region. -/
def agreeOn (r : Region) (m m' : Memory) : Prop := ∀ a, r.contains a = true → readByte m' a = readByte m a

theorem agreeOn.byteAddr {base : Addr} {n : Word} {m m' : Memory} (h : agreeOn ⟨base, n.toNat⟩ m m') {k : Nat}
    (hk : k < n.toNat) : readByte m' (byteAddr base k) = readByte m (byteAddr base k) :=
  h _ (contains_byteAddr base hk)

variable {m' : Memory} {t' : State}

theorem encodesWith_endAlike (hm : Memory.wf s.mem = true) (hm' : Memory.wf m' = true) (hi : encodesWith i rom)
    (hread : agreeOn (readRegion i s) s.mem m') (h : exec i s = .next t) (h' : exec i { s with mem := m' } = .next t') :
    endAlike s { s with mem := m' } t t' := by
  rw [exec_of_encodesWith hi] at h h'
  simp only [encodeSlice] at h h'
  split_ifs at h h' with hlen <;> cases h <;> cases h'
  · rw [readRegion_of_encodesWith hi hlen] at hread
    exact ⟨rfl, writtenAlike_encLoop _ _ _ _ _ hm hm' fun j _ hj => hread.byteAddr (by omega)⟩
  · exact ⟨rfl, .refl _ _⟩

theorem dec_endAlike (hm : Memory.wf s.mem = true) (hm' : Memory.wf m' = true)
    (hread : agreeOn (readRegion .dec s) s.mem m') (h : execDec s = .next t)
    (h' : execDec { s with mem := m' } = .next t') : endAlike s { s with mem := m' } t t' := by
  simp only [execDec] at h h'
  split_ifs at h h' with hodd hlen <;> cases h <;> cases h'
  · exact ⟨rfl, .refl _ _⟩
  · rw [readRegion_dec (by simpa using hodd) hlen] at hread
    have hpairs := decLengthOk_iff.1 hlen
    obtain ⟨hresult, hwritten⟩ := writtenAlike_decLoop s.srcAddr s.dstAddr s.dstLen.toNat 0 hm hm'
      fun j _ hj => hread.byteAddr (by omega)
    exact ⟨by rw [hresult]; rfl, hwritten⟩
  · exact ⟨rfl, .refl _ _⟩

/-- INEXT writes no memory, and its one read is its read set (42_iterator.md R163). -/
theorem inext_endAlike (hread : agreeOn (readRegion .inext s) s.mem m') (h : execInext s = .next t)
    (h' : execInext { s with mem := m' } = .next t') : endAlike s { s with mem := m' } t t' := by
  simp only [execInext] at h h'
  split_ifs at h h' with hpend hrem <;> cases h <;> cases h'
  · exact ⟨rfl, .refl _ _⟩
  · rw [readRegion_inext (by simpa using hpend) hrem] at hread
    have hbyte : readByte m' s.iterAddr = readByte s.mem s.iterAddr := hread _ (by simp [Region.contains])
    exact ⟨by simp only [emitHigh, hbyte]; rfl, .refl _ _⟩
  · exact ⟨rfl, .refl _ _⟩

theorem exec_endAlike (hm : Memory.wf s.mem = true) (hm' : Memory.wf m' = true)
    (hread : agreeOn (readRegion i s) s.mem m') (h : exec i s = .next t) (h' : exec i { s with mem := m' } = .next t') :
    endAlike s { s with mem := m' } t t' := by
  cases i with
  | encL => exact encodesWith_endAlike hm hm' (.inl ⟨rfl, rfl⟩) hread h h'
  | encU => exact encodesWith_endAlike hm hm' (.inr ⟨rfl, rfl⟩) hread h h'
  | dec => exact dec_endAlike hm hm' hread h h'
  | inext => exact inext_endAlike hread h h'
  | iloadL | iloadU | tblrdEL idx | tblrdEU idx | tblrdD idx => cases h; cases h'; exact ⟨rfl, .refl _ _⟩

/-- Settles O30: each command's loop or read stays in its read set, so its writes are alike. -/
theorem commandDependsOnlyOnItsReadSet : Obligations.CommandDependsOnlyOnItsReadSet := by
  intro i s s' t t' hm hm' hs hread h h'
  rw [hs] at h'
  exact exec_endAlike hm hm' hread h h'

/-- Settles O29: the host's byte is in no read set, so both orders write alike, and in no write set, so it stays. -/
theorem hostWriteCommutesWithCompletion : Obligations.HostWriteCommutesWithCompletion := by
  intro i s t a b hm hread hwrite h
  have hm' := wf_writeByte hm a b
  have ht := wf_exec hm h
  obtain ⟨t', h'⟩ := exec_answers_next i { s with mem := writeByte s.mem a b }
  have hagree : agreeOn (readRegion i s) s.mem (writeByte s.mem a b) := fun x hx =>
    readByte_writeByte_ne hm b (by rintro rfl; exact Bool.false_ne_true (hread.symm.trans hx))
  obtain ⟨hregs, halike⟩ := exec_endAlike hm hm' hagree h h'
  have hmem : t'.mem = writeByte t.mem a b := by
    refine memory_eq_of_reads (wf_exec hm' h') (wf_writeByte ht a b) fun x => ?_
    by_cases hx : x = a
    · rw [hx, readByte_writeByte_self ht, readByte_exec_outside hm' h' hwrite, readByte_writeByte_self hm]
    · rw [readByte_writeByte_ne ht b hx]
      exact halike.agree (readByte_writeByte_ne hm b hx)
  rw [h', hregs, hmem]

end Sys2Proof.Machine
end

section
/-! Memory (20_memory.md section 3): the host's accesses (R60, R61, R70) and what the steps around a command leave (R68, R69). -/

namespace Sys2Proof.Machine

variable {s t : State}

/-! ## While BUSY = 0 -/

theorem running_idle (hb : s.busy = false) : running s = none := by
  simp [running, hb]

theorem envAfter_of_idle (hb : s.busy = false) (rest : List HostAction) :
    envAfter s rest = { s.env with todo := rest } := by
  simp [envAfter, hb]

theorem hostMemWrite_idle (hb : s.busy = false) (a : Addr) (b : Byte) :
    hostMemWrite a b s = .next { s with mem := writeByte s.mem a b } := by
  simp [hostMemWrite, inRunningSets, running_idle hb]

theorem hostMemRead_idle (hb : s.busy = false) (a : Addr) :
    hostMemRead a s = .next (observe (.byte a (readByte s.mem a)) s) := by
  simp [hostMemRead, inRunningWriteSet, running_idle hb]

/-- Settles O28: with no command running neither access is refused, and a write changes its own byte only. -/
theorem idleHostAccessesMemory : Obligations.IdleHostAccessesMemory := by
  intro s rest a hm hb
  refine ⟨fun b hs => ?_, fun hs => ?_⟩
  · refine ⟨_, (step_hostTakes ⟨.inl hb, hs⟩).trans (hostMemWrite_idle (by exact hb) a b), ?_, ?_, ?_⟩
    · exact readByte_writeByte_self hm a b
    · exact fun x hx => readByte_writeByte_ne hm b hx
    · rw [envAfter_of_idle hb]
  · rw [step_hostTakes ⟨.inl hb, hs⟩, envAfter_of_idle hb]
    exact hostMemRead_idle (by exact hb) a

/-! ## Refusals -/

theorem inRunningWriteSet_iff {a : Addr} :
    inRunningWriteSet s a = true ↔ ∃ i, running s = some i ∧ (writeRegion i s).contains a = true := by
  unfold inRunningWriteSet
  split <;> simp_all

theorem inRunningSets_iff {a : Addr} : inRunningSets s a = true ↔
    ∃ i, running s = some i ∧ ((readRegion i s).contains a = true ∨ (writeRegion i s).contains a = true) := by
  unfold inRunningSets
  split <;> simp_all

/-- The two host moves that are not admitted (20_memory.md R70). -/
theorem hostAct_refused_iff {act : HostAction} : (∃ r, hostAct act s = .refused r) ↔
    (∃ a, act = .memRead a ∧ inRunningWriteSet s a = true) ∨
    (∃ a b, act = .memWrite a b ∧ inRunningSets s a = true) := by
  cases act with
  | memRead a =>
    simp only [hostAct, hostMemRead]
    split_ifs with h <;> simp [h]
  | memWrite a b =>
    simp only [hostAct, hostMemWrite]
    split_ifs with h <;> simp [h]
  | _ => simp [hostAct]

/-- A step is refused exactly when it is one of those moves: ENGINE's turn and an idle turn are not (00_scope.md R12). -/
theorem step_refused_iff (hInv : Inv s) : (∃ r, step s = .refused r) ↔
    (∃ a rest, hostTakes s (.memRead a) rest ∧ inRunningWriteSet s a = true) ∨
    (∃ a b rest, hostTakes s (.memWrite a b) rest ∧ inRunningSets s a = true) := by
  constructor
  · rintro ⟨r, h⟩
    rcases engine_or_host s with ⟨hb, ht⟩ | hmoves
    · obtain ⟨i, hi⟩ := hInv.exists_running hb
      obtain ⟨t, hexec⟩ := exec_answers_next i s
      nomatch h.symm.trans ((step_completes (completes_iff.2 ⟨hi, ht⟩)).trans hexec)
    · cases hs : s.env.todo with
      | nil => nomatch h.symm.trans (step_hostIdle hmoves hs)
      | cons act rest =>
        rw [step_hostTakes ⟨hmoves, hs⟩] at h
        rcases hostAct_refused_iff.1 ⟨r, h⟩ with ⟨a, rfl, ha⟩ | ⟨a, b, rfl, ha⟩
        · exact .inl ⟨a, rest, ⟨hmoves, hs⟩, ha⟩
        · exact .inr ⟨a, b, rest, ⟨hmoves, hs⟩, ha⟩
  · rintro (⟨a, rest, htakes, ha⟩ | ⟨a, b, rest, htakes, ha⟩) <;> rw [step_hostTakes htakes]
    · exact hostAct_refused_iff.2 (.inl ⟨a, rfl, ha⟩)
    · exact hostAct_refused_iff.2 (.inr ⟨a, b, rfl, ha⟩)

theorem hostMoves_running {i : Instr} (hi : running s = some i) : hostMoves s ↔ s.env.turns ≠ 0 := by
  simp [hostMoves, busy_of_running hi]

/-- Settles O13: `step_refused_iff`, with the running command read off the latch (10_state.md R48). -/
theorem refusalsAreHostDutyBreaches : Obligations.RefusalsAreHostDutyBreaches := by
  intro s hInv
  rw [step_refused_iff hInv]
  constructor
  · rintro (⟨a, rest, ⟨hmoves, hs⟩, ha⟩ | ⟨a, b, rest, ⟨hmoves, hs⟩, ha⟩)
    · obtain ⟨i, hi, hin⟩ := inRunningWriteSet_iff.1 ha
      obtain ⟨hb, v, hv, hd⟩ := running_eq_some.1 hi
      exact ⟨hb, (hostMoves_running hi).1 hmoves, v, i, hv, hd, .inl ⟨a, rest, hs, hin⟩⟩
    · obtain ⟨i, hi, hin⟩ := inRunningSets_iff.1 ha
      obtain ⟨hb, v, hv, hd⟩ := running_eq_some.1 hi
      exact ⟨hb, (hostMoves_running hi).1 hmoves, v, i, hv, hd, .inr ⟨a, b, rest, hs, hin⟩⟩
  · rintro ⟨hb, ht, v, i, hv, hd, hmove⟩
    have hi : running s = some i := running_eq_some.2 ⟨hb, v, hv, hd⟩
    rcases hmove with ⟨a, rest, hs, hin⟩ | ⟨a, b, rest, hs, hin⟩
    · exact .inl ⟨a, rest, ⟨.inr ht, hs⟩, inRunningWriteSet_iff.2 ⟨i, hi, hin⟩⟩
    · exact .inr ⟨a, b, rest, ⟨.inr ht, hs⟩, inRunningSets_iff.2 ⟨i, hi, hin⟩⟩

/-! ## What the outside world's actions leave -/

@[simp] theorem hostBusWrite_mem (off : BitVec 6) (v : Word) (s : State) : (hostBusWrite off v s).mem = s.mem := by
  have hissue : (issue v s).mem = s.mem := by
    obtain ⟨l, b, d, bc, e, h⟩ := issue_shape v s
    rw [h]
  unfold hostBusWrite busWrite
  split_ifs
  · rfl
  · rfl
  · split
    · exact hissue
    all_goals rfl

/-- What an action does to memory (20_memory.md R61, R75). -/
theorem hostAct_mem {act : HostAction} (h : hostAct act s = .next t) :
    t.mem = s.mem ∨ (∃ a b, act = .memWrite a b ∧ t.mem = writeByte s.mem a b) ∨
      (act = .resetAssert ∧ t.mem = abandonWriteSet s) := by
  rcases hostAct_next h with ⟨off, v, -, rfl⟩ | ⟨dst, -, rfl⟩ | ⟨a, b, hw, -, rfl⟩ | ⟨hr, rfl⟩ | ⟨-, rfl⟩ | heq
  · exact .inl (hostBusWrite_mem off v s)
  · exact .inl (hostBusWrite_mem _ _ s)
  · exact .inr (.inl ⟨a, b, hw, rfl⟩)
  · exact .inr (.inr ⟨hr, rfl⟩)
  · exact .inl rfl
  · exact .inl (by rw [heq])

/-- While a command runs, an action other than reset's assertion reaches no register (20_memory.md R68). -/
theorem hostAct_busy {act : HostAction} (h : hostAct act s = .next t) (hb : s.busy = true)
    (hout : s.resetAsserted = false) (hact : act ≠ .resetAssert) : t = { s with mem := t.mem, env := t.env } := by
  rcases hostAct_next h with ⟨off, v, -, rfl⟩ | ⟨dst, -, rfl⟩ | ⟨a, b, -, -, rfl⟩ | ⟨hreset, -⟩ | ⟨-, rfl⟩ | heq
  · rw [hostBusWrite_busy hb]
  · rw [hostIterLoop, hostBusWrite_busy hb]; rfl
  · rfl
  · exact absurd hreset hact
  · rw [releaseReset, ← hout]
  · rw [heq]

/-- Settles O14: a host turn is idle or one action, which reaches no register, and memory by the host's write alone. -/
theorem noIntermediateStateOfACommand : Obligations.NoIntermediateStateOfACommand := by
  intro s t hInv hb ht hstep hreset
  rcases step_next hstep with ⟨i, ⟨-, h0, -⟩, -⟩ | ⟨-, -, rfl⟩ | ⟨act, rest, ⟨-, hs⟩, hact⟩
  · exact absurd h0 ht
  · exact ⟨rfl, fun _ => rfl⟩
  · have hne : act ≠ .resetAssert := fun he => hreset rest (he ▸ hs)
    refine ⟨hostAct_busy (s := { s with env := envAfter s rest }) hact hb (hInv.notReset_of_busy hb) hne, fun hwrite => ?_⟩
    rcases hostAct_mem hact with heq | ⟨a, b, rfl, -⟩ | ⟨he, -⟩
    · exact heq
    · exact absurd hs (hwrite a b rest)
    · exact absurd he hne

/-- Reset changes no byte outside an abandoned command's write set (70_reset_and_hazards.md R225). -/
theorem readByte_abandonWriteSet_outside (hm : Memory.wf s.mem = true) {a : Addr} (ha : inRunningWriteSet s a = false) :
    readByte (abandonWriteSet s) a = readByte s.mem a := by
  unfold abandonWriteSet
  split
  next i hi =>
    refine readByte_abandonBytes_outside _ _ _ hm fun j hj heq => Bool.false_ne_true (ha.symm.trans ?_)
    exact inRunningWriteSet_iff.2 ⟨i, hi, (Region.contains_iff (writeRegion_len_le i s) a).2 ⟨j, hj, heq⟩⟩
  next => rfl

/-- Settles O21: a completion writes in its write set, and of the outside world's actions only two reach memory. -/
theorem memoryChangesOnlyInWriteSets : Obligations.MemoryChangesOnlyInWriteSets := by
  intro s t a hInv hstep hchanged
  have hm := hInv.mem_wf
  rcases step_next hstep with ⟨i, hcompletes, hexec⟩ | ⟨-, -, rfl⟩ | ⟨act, rest, htakes, hact⟩
  · refine .inl ⟨i, hcompletes, ?_⟩
    by_contra hout
    exact hchanged (readByte_exec_outside hm hexec (by simpa using hout))
  · exact absurd rfl hchanged
  · rcases hostAct_mem hact with heq | ⟨x, b, rfl, heq⟩ | ⟨rfl, heq⟩ <;> rw [heq] at hchanged ⊢
    · exact absurd rfl hchanged
    · have hx : a = x := by
        by_contra hne
        exact hchanged (readByte_writeByte_ne hm b hne)
      subst hx
      exact .inr (.inl ⟨b, rest, htakes, readByte_writeByte_self hm a b⟩)
    · refine .inr (.inr ⟨rest, htakes, ?_⟩)
      by_contra hout
      exact hchanged (readByte_abandonWriteSet_outside (s := { s with env := envAfter s rest }) hm
        (eq_false_of_ne_true hout))

end Sys2Proof.Machine
end

section
/-! Encoding (30_encoding.md section 2): the fields as numbers (R83), the commands' words (R87) and the reserved words (R91). -/

namespace Sys2Proof

/-! ## The fields as numbers -/

theorem fieldOp_toNat (v : Word) : (fieldOp v).toNat = v.toNat % 16 := by
  simp [fieldOp]

theorem fieldReservedLow_toNat (v : Word) : (fieldReservedLow v).toNat = v.toNat / 64 % 4 := by
  simp [fieldReservedLow, Nat.shiftRight_eq_div_pow]

theorem fieldIdx_toNat (v : Word) : (fieldIdx v).toNat = v.toNat / 256 % 256 := by
  simp [fieldIdx, Nat.shiftRight_eq_div_pow]

theorem fieldReservedHigh_toNat (v : Word) : (fieldReservedHigh v).toNat = v.toNat / 65536 := by
  have := v.isLt
  simp only [fieldReservedHigh, BitVec.extractLsb'_toNat, Nat.shiftRight_eq_div_pow]
  omega

theorem fieldCase_iff (v : Word) : fieldCase v = true ↔ v.toNat / 16 % 2 = 1 := by
  simp [fieldCase, BitVec.getLsbD, Nat.testBit_eq_decide_div_mod_eq]

theorem fieldT_iff (v : Word) : fieldT v = true ↔ v.toNat / 32 % 2 = 1 := by
  simp [fieldT, BitVec.getLsbD, Nat.testBit_eq_decide_div_mod_eq]

theorem encodeIndexOk_iff (idx : Byte) : encodeIndexOk idx = true ↔ idx.toNat < 16 := by simp [encodeIndexOk]

theorem fieldOp_eq_iff (v : Word) (n : Nibble) : fieldOp v = n ↔ v.toNat % 16 = n.toNat := by
  rw [← BitVec.toNat_inj, fieldOp_toNat]

theorem fieldReservedLow_eq_zero_iff (v : Word) : fieldReservedLow v = 0 ↔ v.toNat / 64 % 4 = 0 := by
  rw [← BitVec.toNat_inj, fieldReservedLow_toNat]; rfl

theorem fieldIdx_eq_zero_iff (v : Word) : fieldIdx v = 0 ↔ v.toNat / 256 % 256 = 0 := by
  rw [← BitVec.toNat_inj, fieldIdx_toNat]; rfl

theorem fieldReservedHigh_eq_zero_iff (v : Word) : fieldReservedHigh v = 0 ↔ v.toNat / 65536 = 0 := by
  rw [← BitVec.toNat_inj, fieldReservedHigh_toNat]; rfl

theorem wordWithIdx_toNat {base : Word} (h : base.toNat < 256) (idx : Byte) :
    (wordWithIdx base idx).toNat = base.toNat + 256 * idx.toNat := by
  have hidx : (idx.setWidth 32 <<< 8).toNat = idx.toNat <<< 8 := by
    have := idx.isLt
    simp only [BitVec.toNat_shiftLeft, BitVec.toNat_setWidth, Nat.shiftLeft_eq]
    omega
  rw [wordWithIdx, BitVec.toNat_or, hidx, Nat.or_comm, ← Nat.shiftLeft_add_eq_or_of_lt h, Nat.shiftLeft_eq]
  omega

/-! ## The reserved words -/

variable {v : Word}

theorem decodeCased_reserved_iff (lower upper : Instr) : (∃ why, decodeCased v lower upper = .reserved why) ↔
    v.toNat / 32 % 2 = 1 ∨ v.toNat / 256 % 256 ≠ 0 := by
  simp only [decodeCased, ne_eq, fieldT_iff, fieldIdx_eq_zero_iff]
  split_ifs <;> simp_all

theorem decodePlain_reserved_iff (i : Instr) : (∃ why, decodePlain v i = .reserved why) ↔
    v.toNat / 32 % 2 = 1 ∨ v.toNat / 16 % 2 = 1 ∨ v.toNat / 256 % 256 ≠ 0 := by
  simp only [decodePlain, ne_eq, fieldT_iff, fieldCase_iff, fieldIdx_eq_zero_iff]
  split_ifs <;> simp_all

theorem decodeTableRead_reserved_iff : (∃ why, decodeTableRead v = .reserved why) ↔
    (v.toNat / 32 % 2 = 1 ∧ v.toNat / 16 % 2 = 1) ∨ (v.toNat / 32 % 2 = 0 ∧ 16 ≤ v.toNat / 256 % 256) := by
  simp only [decodeTableRead, fieldT_iff, fieldCase_iff, encodeIndexOk_iff, fieldIdx_toNat]
  split_ifs <;> simp_all

/-- R91's list, with each row's own conditions. -/
theorem decode_reserved_iff : (∃ why, decode v = .reserved why) ↔
      v.toNat % 16 = 0 ∨ 6 ≤ v.toNat % 16 ∨
      v.toNat / 64 % 4 ≠ 0 ∨ v.toNat / 65536 ≠ 0 ∨
      (v.toNat / 16 % 2 = 1 ∧ (v.toNat % 16 = 2 ∨ v.toNat % 16 = 4)) ∨
      (v.toNat / 32 % 2 = 1 ∧ v.toNat % 16 ≠ 5) ∨
      (v.toNat / 256 % 256 ≠ 0 ∧ v.toNat % 16 ≠ 5) ∨
      (v.toNat % 16 = 5 ∧ v.toNat / 32 % 2 = 0 ∧ v.toNat / 256 % 256 / 16 ≠ 0) ∨
      (v.toNat % 16 = 5 ∧ v.toNat / 32 % 2 = 1 ∧ v.toNat / 16 % 2 = 1) := by
  simp only [decode, ne_eq, fieldReservedHigh_eq_zero_iff, fieldReservedLow_eq_zero_iff, fieldOp_eq_iff, BitVec.reduceToNat]
  split_ifs
  · simp only [Decoded.reserved.injEq, exists_eq', true_iff]; omega
  · rw [decodeCased_reserved_iff]; omega
  · rw [decodePlain_reserved_iff]; omega
  · rw [decodeCased_reserved_iff]; omega
  · rw [decodePlain_reserved_iff]; omega
  · rw [decodeTableRead_reserved_iff]; omega
  · simp only [Decoded.reserved.injEq, exists_eq', true_iff]; omega

/-! ## The words of the commands -/

variable {i : Instr}

theorem decodeCased_eq_instr {lower upper : Instr} (h : decodeCased v lower upper = .instr i) :
    v.toNat / 32 % 2 = 0 ∧ v.toNat / 256 % 256 = 0 ∧
      ((v.toNat / 16 % 2 = 0 ∧ i = lower) ∨ (v.toNat / 16 % 2 = 1 ∧ i = upper)) := by
  simp only [decodeCased, ne_eq, fieldT_iff, fieldCase_iff, fieldIdx_eq_zero_iff] at h
  split_ifs at h <;> simp_all

theorem decodePlain_eq_instr {j : Instr} (h : decodePlain v j = .instr i) :
    v.toNat / 32 % 2 = 0 ∧ v.toNat / 16 % 2 = 0 ∧ v.toNat / 256 % 256 = 0 ∧ i = j := by
  simp only [decodePlain, ne_eq, fieldT_iff, fieldCase_iff, fieldIdx_eq_zero_iff] at h
  split_ifs at h
  simp_all

theorem decodeTableRead_eq_instr (h : decodeTableRead v = .instr i) :
    (v.toNat / 32 % 2 = 1 ∧ v.toNat / 16 % 2 = 0 ∧ i = .tblrdD (fieldIdx v)) ∨
    (v.toNat / 32 % 2 = 0 ∧ v.toNat / 256 % 256 < 16 ∧
      ((v.toNat / 16 % 2 = 0 ∧ i = .tblrdEL (fieldIdx v)) ∨ (v.toNat / 16 % 2 = 1 ∧ i = .tblrdEU (fieldIdx v)))) := by
  simp only [decodeTableRead, fieldT_iff, fieldCase_iff, encodeIndexOk_iff, fieldIdx_toNat] at h
  split_ifs at h <;> simp_all

theorem wordWithIdx_fieldIdx {base : Word} (hbase : base.toNat < 256)
    (hv : v.toNat = base.toNat + 256 * (v.toNat / 256 % 256)) : wordWithIdx base (fieldIdx v) = v :=
  BitVec.eq_of_toNat_eq (by rw [wordWithIdx_toNat hbase, fieldIdx_toNat, ← hv])

theorem encodeIndexOk_fieldIdx (hidx : v.toNat / 256 % 256 < 16) : encodeIndexOk (fieldIdx v) = true := by
  rwa [encodeIndexOk_iff, fieldIdx_toNat]

/-- A word that decodes to a command is that command's word, to the last bit (30_encoding.md R87, R90). -/
theorem encode_eq_of_decode (h : decode v = .instr i) : i.wellFormed = true ∧ encode i = v := by
  simp only [decode, ne_eq, fieldReservedHigh_eq_zero_iff, fieldReservedLow_eq_zero_iff, fieldOp_eq_iff, BitVec.reduceToNat] at h
  split_ifs at h
  · obtain ⟨ht, hidx, ⟨hc, rfl⟩ | ⟨hc, rfl⟩⟩ := decodeCased_eq_instr h
    · exact ⟨rfl, by rw [encode]; bv_omega⟩
    · exact ⟨rfl, by rw [encode]; bv_omega⟩
  · obtain ⟨ht, hc, hidx, rfl⟩ := decodePlain_eq_instr h
    exact ⟨rfl, by rw [encode]; bv_omega⟩
  · obtain ⟨ht, hidx, ⟨hc, rfl⟩ | ⟨hc, rfl⟩⟩ := decodeCased_eq_instr h
    · exact ⟨rfl, by rw [encode]; bv_omega⟩
    · exact ⟨rfl, by rw [encode]; bv_omega⟩
  · obtain ⟨ht, hc, hidx, rfl⟩ := decodePlain_eq_instr h
    exact ⟨rfl, by rw [encode]; bv_omega⟩
  · obtain ⟨ht, hc, rfl⟩ | ⟨ht, hidx, ⟨hc, rfl⟩ | ⟨hc, rfl⟩⟩ := decodeTableRead_eq_instr h
    · exact ⟨rfl, wordWithIdx_fieldIdx (by decide) (by bv_omega)⟩
    · exact ⟨encodeIndexOk_fieldIdx hidx, wordWithIdx_fieldIdx (by decide) (by bv_omega)⟩
    · exact ⟨encodeIndexOk_fieldIdx hidx, wordWithIdx_fieldIdx (by decide) (by bv_omega)⟩

theorem decode_encode (h : i.wellFormed = true) : decode (encode i) = .instr i := by
  cases i with
  | encL => exact Laws.WordDecodes.encL h
  | encU => exact Laws.WordDecodes.encU h
  | dec => exact Laws.WordDecodes.dec h
  | iloadL => exact Laws.WordDecodes.iloadL h
  | iloadU => exact Laws.WordDecodes.iloadU h
  | inext => exact Laws.WordDecodes.inext h
  | tblrdEL idx => exact Laws.WordDecodes.tblrdEL idx h
  | tblrdEU idx => exact Laws.WordDecodes.tblrdEU idx h
  | tblrdD idx => exact Laws.WordDecodes.tblrdD idx h


/-! ## The opcode table -/

/-- Masked words that agree, agree on every run of bits the mask keeps (30_encoding.md R87). -/
theorem bits_eq_of_masked_eq {r m : Word} (h : v &&& m = r &&& m) (k n : Nat)
    (hm : m.extractLsb' k n = BitVec.allOnes n) : v.toNat / 2 ^ k % 2 ^ n = r.toNat / 2 ^ k % 2 ^ n := by
  have hbits : v.extractLsb' k n = r.extractLsb' k n := by
    simpa [BitVec.extractLsb'_and, hm] using congrArg (BitVec.extractLsb' k n) h
  simpa [Nat.shiftRight_eq_div_pow] using congrArg BitVec.toNat hbits

theorem mnemonics_distinct : ∀ r ∈ opcodeRows, ∀ r' ∈ opcodeRows, r.1 = r'.1 → r = r' := by
  decide

theorem encode_matches_its_row (h : i.wellFormed = true) :
    ∃ r ∈ opcodeRows, mnemonic i = r.1 ∧ encode i &&& r.2.2 = r.2.1 &&& r.2.2 := by
  cases i with
  | tblrdEL idx => revert idx; decide +kernel
  | tblrdEU idx => revert idx; decide +kernel
  | tblrdD idx => revert idx; decide +kernel
  | _ => decide


/-- A word that matches a row of the table is the word of a command of that row (30_encoding.md R87). -/
theorem exists_encode_of_matches {r : String × Word × Word} (hr : r ∈ opcodeRows) (h : v &&& r.2.2 = r.2.1 &&& r.2.2) :
    ∃ i, i.wellFormed = true ∧ encode i = v ∧ mnemonic i = r.1 := by
  have full {w : Word} (h : v &&& 0xFFFFFFFF = w &&& 0xFFFFFFFF) : w = v := by
    have hall := bits_eq_of_masked_eq h 0 32 rfl
    bv_omega
  have encodeIndex {w : Word} (hw : w.toNat < 256) (h : v &&& 0xFFFFF0FF = w &&& 0xFFFFF0FF) :
      encodeIndexOk (fieldIdx v) = true ∧ wordWithIdx w (fieldIdx v) = v := by
    have hlow := bits_eq_of_masked_eq h 0 8 rfl
    have hhigh := bits_eq_of_masked_eq h 12 20 rfl
    exact ⟨encodeIndexOk_fieldIdx (by omega), wordWithIdx_fieldIdx hw (by omega)⟩
  have anyIndex {w : Word} (hw : w.toNat < 256) (h : v &&& 0xFFFF00FF = w &&& 0xFFFF00FF) :
      wordWithIdx w (fieldIdx v) = v := by
    have hlow := bits_eq_of_masked_eq h 0 8 rfl
    have hhigh := bits_eq_of_masked_eq h 16 16 rfl
    exact wordWithIdx_fieldIdx hw (by omega)
  simp only [opcodeRows, List.mem_cons, List.not_mem_nil, or_false] at hr
  rcases hr with rfl | rfl | rfl | rfl | rfl | rfl | rfl | rfl | rfl
  · exact ⟨.encL, rfl, full h, rfl⟩
  · exact ⟨.encU, rfl, full h, rfl⟩
  · exact ⟨.dec, rfl, full h, rfl⟩
  · exact ⟨.iloadL, rfl, full h, rfl⟩
  · exact ⟨.iloadU, rfl, full h, rfl⟩
  · exact ⟨.inext, rfl, full h, rfl⟩
  · obtain ⟨hwf, hword⟩ := encodeIndex (by decide) h
    exact ⟨.tblrdEL (fieldIdx v), hwf, hword, rfl⟩
  · obtain ⟨hwf, hword⟩ := encodeIndex (by decide) h
    exact ⟨.tblrdEU (fieldIdx v), hwf, hword, rfl⟩
  · exact ⟨.tblrdD (fieldIdx v), rfl, anyIndex (by decide) h, rfl⟩

/-- A word matches a row exactly when it decodes to a command with the row's mnemonic (30_encoding.md R87, R90). -/
theorem matches_iff_decodes {r : String × Word × Word} (hr : r ∈ opcodeRows) :
    v &&& r.2.2 = r.2.1 &&& r.2.2 ↔ ∃ i, decode v = .instr i ∧ mnemonic i = r.1 := by
  constructor
  · intro h
    obtain ⟨i, hwf, rfl, hname⟩ := exists_encode_of_matches hr h
    exact ⟨i, decode_encode hwf, hname⟩
  · rintro ⟨i, hi, hname⟩
    obtain ⟨hwf, rfl⟩ := encode_eq_of_decode hi
    obtain ⟨r', hr', hname', hmatch⟩ := encode_matches_its_row hwf
    rwa [mnemonics_distinct r hr r' hr' (hname.symm.trans hname')]

/-- Settles O2: a word that matches a row decodes to a command of that row, and the rows' mnemonics are distinct. -/
theorem opcodeRowsAreDisjointAndExact : Obligations.OpcodeRowsAreDisjointAndExact := by
  refine ⟨fun v r hr r' hr' h h' => ?_, fun v r hr => matches_iff_decodes hr, fun v hnone => ?_⟩
  · obtain ⟨i, hi, hname⟩ := (matches_iff_decodes hr).1 h
    obtain ⟨j, hj, hname'⟩ := (matches_iff_decodes hr').1 h'
    obtain rfl : i = j := Decoded.instr.inj (hi.symm.trans hj)
    exact mnemonics_distinct r hr r' hr' (hname.symm.trans hname')
  · cases hd : decode v with
    | reserved why => exact ⟨why, rfl⟩
    | instr i =>
      obtain ⟨hwf, rfl⟩ := encode_eq_of_decode hd
      obtain ⟨r, hr, -, hmatch⟩ := encode_matches_its_row hwf
      exact absurd hmatch (hnone r hr)

end Sys2Proof

namespace Sys2Proof.Machine

/-- Settles O3: `decode_reserved_iff` is R91's list, and issue rejects a reserved word (30_encoding.md R84). -/
theorem reservedWordsAreRejected : Obligations.ReservedWordsAreRejected :=
  fun _ s => ⟨decode_reserved_iff, fun ⟨_, h⟩ => issue_reserved h s⟩

end Sys2Proof.Machine
end

section
/-! The register bus and the step (30_encoding.md sections 1 to 3): R81, R82, R84 to R86, R96. -/

namespace Sys2Proof.Machine

variable {s t : State}

/-! ## Bus writes -/

/-- Out of reset the outside world's bus write is BusWrite (30_encoding.md R81, 70_reset_and_hazards.md R220). -/
theorem hostBusWrite_eq_busWrite (hr : s.resetAsserted = false) (off : BitVec 6) (v : Word) :
    hostBusWrite off v s = busWrite (slotOf off) v s := by
  simp [hostBusWrite, hr]

theorem busWrite_ignored {slot : BitVec 4} (h : slot.toNat = 1 ∨ 6 ≤ slot.toNat) (v : Word) (s : State) :
    busWrite slot v s = s := by
  rcases busWrite_cases slot v s with heq | ⟨-, hslot, -⟩ | ⟨-, hslot, -⟩ | ⟨-, hslot, -⟩ | ⟨-, hslot, -⟩ | ⟨-, hslot, -⟩
  · exact heq
  all_goals omega

theorem busWrite_idle (hb : s.busy = false) (slot : BitVec 4) (v : Word) :
    (slot.toNat = 0 → busWrite slot v s = issue v s) ∧
    (slot.toNat = 2 → busWrite slot v s = { s with srcAddr := v }) ∧
    (slot.toNat = 3 → busWrite slot v s = { s with srcLen := v }) ∧
    (slot.toNat = 4 → busWrite slot v s = { s with dstAddr := v }) ∧
    (slot.toNat = 5 → busWrite slot v s = { s with dstLen := v }) := by
  refine ⟨?_, ?_, ?_, ?_, ?_⟩ <;> intro hslot <;> simp only [busWrite, hb, hslot, Bool.false_eq_true, if_false]

/-- Settles O6: out of reset the host's write is `busWrite`, whose slots are the table's. -/
theorem busWriteFollowsItsTable : Obligations.BusWriteFollowsItsTable := by
  intro s off v rest htakes hr
  have hstep : step s = .next (busWrite (slotOf off) v { s with env := envAfter s rest }) := by
    rw [← hostBusWrite_eq_busWrite (by exact hr)]
    exact step_hostTakes htakes
  rw [hstep, ← slotOf_toNat]
  refine ⟨fun hb => ?_, fun hb => ?_⟩
  · rw [busWrite, if_pos hb]
  · obtain ⟨hcmd, hsrc, hsrcLen, hdst, hdstLen⟩ :=
      busWrite_idle (s := { s with env := envAfter s rest }) hb (slotOf off) v
    exact ⟨fun h => congrArg _ (hcmd h), fun h => congrArg _ (hsrc h), fun h => congrArg _ (hsrcLen h),
      fun h => congrArg _ (hdst h), fun h => congrArg _ (hdstLen h), fun h => congrArg _ (busWrite_ignored h v _)⟩

/-- Settles O5: the write is Issue (O6), which rejects a reserved word and accepts any other. -/
theorem idleCmdWriteIssues : Obligations.IdleCmdWriteIssues := by
  intro s off v rest htakes hb hr hslot
  obtain ⟨hissue, -⟩ := (busWriteFollowsItsTable s off v rest htakes hr).2 hb
  rw [hissue hslot]
  constructor
  · rintro ⟨why, hd⟩
    exact congrArg _ (issue_reserved hd _)
  · rintro ⟨i, hd⟩
    exact ⟨_, congrArg _ (issue_instr hd _), rfl, drawLatency_todo _, drawLatency_seen _⟩

/-! ## Bus reads -/

@[simp] theorem hostBusRead_todo (off : BitVec 6) (s : State) : (hostBusRead off s).env.todo = s.env.todo := by
  unfold hostBusRead
  split <;> simp

@[simp] theorem hostBusRead_seen (off : BitVec 6) (s : State) :
    (hostBusRead off s).env.seen = .reg off (readValue off s) :: s.env.seen := by
  unfold hostBusRead busReadDraws
  split_ifs <;> rfl

theorem readValue_eq_busReadWord (hr : s.resetAsserted = false) (off : BitVec 6) :
    readValue off s = some (busReadWord (slotOf off) s) := by
  simp [readValue, hr]

/-- A read draws no free value while BUSY = 0, nor of STATUS (10_state.md R45). -/
theorem busReadWord_eq_slotWord {slot : BitVec 4} (h : s.busy = false ∨ slot.toNat = 1) :
    busReadWord slot s = slotWord slot s := by
  have hslot : slot.toNat = 1 → slot = 1 := fun h => BitVec.eq_of_toNat_eq h
  rcases h with hb | h1
  · simp [busReadWord, hb]
  · simp [busReadWord, hslot h1]

theorem bit_toNat (b : Bool) : (bit b).toNat = b.toNat := BitVec.toNat_ofBool b

theorem toNat_append_eq_add {m n : Nat} (x : BitVec m) (y : BitVec n) :
    (x ++ y).toNat = x.toNat * 2 ^ n + y.toNat := by
  rw [BitVec.toNat_append, ← Nat.shiftLeft_add_eq_or_of_lt y.isLt, Nat.shiftLeft_eq]

theorem statusWord_toNat (s : State) :
    (statusWord s).toNat = s.busy.toNat + 2 * s.done.toNat + 4 * s.err.toNat + 16 * s.badcmd.toNat := by
  rw [statusWord, toNat_append_eq_add]
  simp only [toNat_append_eq_add, bit_toNat, BitVec.toNat_ofNat]
  omega

theorem errCharWord_toNat (s : State) : (errCharWord s).toNat = s.errChar.toNat := by
  rw [errCharWord, toNat_append_eq_add]
  simp

theorem resultWord_toNat (s : State) : (resultWord s).toNat = s.resValue.toNat + 256 * s.resValid.toNat := by
  rw [resultWord, toNat_append_eq_add]
  simp only [toNat_append_eq_add, bit_toNat, BitVec.toNat_ofNat]
  omega

theorem iterStateWord_toNat (s : State) :
    (iterStateWord s).toNat = s.pend.toNat + 2 * s.icase.toNat + 256 * s.pchar.toNat := by
  rw [iterStateWord, toNat_append_eq_add]
  simp only [toNat_append_eq_add, bit_toNat, BitVec.toNat_ofNat]
  omega

theorem slotWord_unmapped {slot : BitVec 4} (h : 12 ≤ slot.toNat) (s : State) : slotWord slot s = 0 := by
  have hslots : slot.toNat = 12 ∨ slot.toNat = 13 ∨ slot.toNat = 14 ∨ slot.toNat = 15 := by omega
  rcases hslots with hslot | hslot | hslot | hslot <;> simp only [slotWord, hslot]

/-- Settles O7: the word is `readValue`'s, and the slot's where no free value is drawn. -/
theorem busReadFollowsItsTable : Obligations.BusReadFollowsItsTable := by
  intro s off rest htakes hr
  let s' : State := { s with env := envAfter s rest }
  refine ⟨busReadWord (slotOf off) s', hostBusRead off s', step_hostTakes htakes, hostBusRead_eq off s',
    hostBusRead_todo off s', ?_, fun h => ?_⟩
  · rw [hostBusRead_seen, readValue_eq_busReadWord (s := s') hr]
    rfl
  · rw [← slotOf_toNat] at *
    have hw : busReadWord (slotOf off) s' = slotWord (slotOf off) s := busReadWord_eq_slotWord (s := s') h
    rw [hw]
    refine ⟨?_, ?_, ?_, ?_, ?_, ?_, ?_, ?_, ?_, ?_, ?_, ?_, fun h => slotWord_unmapped h s⟩ <;> intro hslot <;>
      simp only [slotWord, hslot, statusWord_toNat, errCharWord_toNat, resultWord_toNat, iterStateWord_toNat]

/-! ## The step -/

/-- Settles O8: `step_completes`. -/
theorem engineTurnRunsTheLatchedCommand : Obligations.EngineTurnRunsTheLatchedCommand := fun _ _ h => step_completes h

/-- Settles O10: `exec_answers_next` and `exec_completed`. -/
theorem everyCommandCompletes : Obligations.EveryCommandCompletes := fun i s =>
  let ⟨t, h⟩ := exec_answers_next i s
  ⟨t, h, exec_completed h⟩

theorem decodeTableWord_eq_some {nbits w : Nat} {i : Instr} (h : decodeTableWord nbits w = some i) :
    decode (BitVec.ofNat 32 (w % 2 ^ nbits)) = .instr i := by
  simp only [decodeTableWord] at h
  split_ifs at h
  exact instr?_eq_some.1 h

theorem withFetchWord_of_decode {nbits w : Nat} {i : Instr} (h : decode (BitVec.ofNat 32 (w % 2 ^ nbits)) = .instr i)
    (s : State) : s.withFetchWord nbits w =
      { latchCommand (encode i) s with resetAsserted := false, env := { s.env with turns := 0 } } := by
  obtain ⟨-, hword⟩ := encode_eq_of_decode h
  simp only [State.withFetchWord, h, hword, latchCommand]

/-- Settles O9: a placed word is latched with no host turn left, so the next step completes it. -/
theorem placedWordRunsNext : Obligations.PlacedWordRunsNext := by
  intro s nbits w i h
  have hd := decodeTableWord_eq_some h
  obtain ⟨-, hword⟩ := encode_eq_of_decode hd
  rw [withFetchWord_of_decode hd]
  exact ⟨step_completes ⟨rfl, rfl, encode i, rfl, hword ▸ hd⟩, rfl⟩

/-! ## poll -/

/-- No command reads or changes the outside world's side (00_scope.md R11). -/
theorem exec_with_env {i : Instr} (h : exec i s = .next t) (e : Env) :
    exec i { s with env := e } = .next { t with env := e } := by
  cases i with
  | encL | encU | dec | inext =>
    simp only [exec, execEncL, execEncU, encodeSlice, execDec, execInext] at h ⊢
    split_ifs at h ⊢ <;> cases h <;> rfl
  | iloadL | iloadU | tblrdEL idx | tblrdEU idx | tblrdD idx => cases h; rfl

/-- Out of reset the host's STATUS read shows BUSY (30_encoding.md R82, R96). -/
theorem readsIdle_eq (hr : s.resetAsserted = false) : readsIdle s = !s.busy := by
  have hword : busReadWord (slotOf (regOffset .status)) s = statusWord s := busReadWord_eq_slotWord (.inr rfl)
  have hbit : (statusWord s).getLsbD 0 = s.busy := by
    rw [BitVec.getLsbD, Nat.testBit_zero, statusWord_toNat]
    cases s.busy <;> simp <;> omega
  simp only [readsIdle, readValue_eq_busReadWord hr, hword, hbit]

/-- A round of `poll` that reads BUSY = 0 is the last (30_encoding.md R96). -/
theorem step_poll_idle {rest : List HostAction} (hb : s.busy = false) (hr : s.resetAsserted = false)
    (htodo : s.env.todo = .poll :: rest) :
    ∃ t, step s = .next t ∧ t = { s with env := t.env } ∧ t.env.todo = rest := by
  refine ⟨_, step_hostTakes ⟨.inl hb, htodo⟩, hostPoll_eq _, ?_⟩
  rw [hostPoll, readsIdle_eq (by exact hr), if_pos (by simp [hb]), hostBusRead_todo]
  rfl

/-- A round of `poll` that reads BUSY = 1 uses up a host turn and goes round again (30_encoding.md R96, log 3). -/
theorem step_poll_busy {rest : List HostAction} {n : Nat} (hb : s.busy = true) (hr : s.resetAsserted = false)
    (htodo : s.env.todo = .poll :: rest) (hn : s.env.turns = n + 1) :
    ∃ t, step s = .next t ∧ t = { s with env := t.env } ∧ t.env.todo = .poll :: rest ∧ t.env.turns = n := by
  refine ⟨_, step_hostTakes ⟨.inr (by omega), htodo⟩, hostPoll_eq _, ?_, ?_⟩
  · rw [hostPoll, readsIdle_eq (by exact hr), if_neg (by simp [hb]), pushTodo_env, hostBusRead_todo]
    rfl
  · rw [hostPoll_turns, envAfter_turns_busy hb, hn]
    rfl

/-- `poll` ends one round after the running command's completion, by induction on the host turns left before it (30_encoding.md
R96, 20_memory.md R69). -/
theorem run_poll_running {i : Instr} {u : State} {rest : List HostAction} {n : Nat} (hi : running s = some i)
    (hr : s.resetAsserted = false) (htodo : s.env.todo = .poll :: rest) (hn : s.env.turns = n) (hu : exec i s = .next u) :
    ∃ k t, core.run k s = .next t ∧ t.env.todo = rest ∧ t = { u with env := t.env } := by
  induction n generalizing s u with
  | zero =>
    have hstep : step s = .next u := (step_completes (completes_iff.2 ⟨hi, hn⟩)).trans hu
    obtain ⟨hidle, -, -, -, -, hreset, henv⟩ := exec_completed hu
    obtain ⟨t, ht, hsame, htodo'⟩ := step_poll_idle hidle (hreset.trans hr) (henv ▸ htodo)
    exact ⟨2, t, (run_succ_of_next (M := core) hstep 1).trans (run_succ_of_next (M := core) ht 0), htodo', hsame⟩
  | succ n ih =>
    obtain ⟨s', hstep, hsame, htodo', hn'⟩ := step_poll_busy (busy_of_running hi) hr htodo hn
    have hu' := exec_with_env hu s'.env
    rw [← hsame] at hu'
    obtain ⟨k, t, hrun, hend⟩ := ih (by rw [hsame]; exact hi) (by rw [hsame]; exact hr) htodo' hn' hu'
    exact ⟨k + 1, t, (run_succ_of_next (M := core) hstep k).trans hrun, hend⟩

/-- Settles O23: on an idle block one round of `poll` is the last, and on a running command it is `run_poll_running`. -/
theorem pollWaitsForTheCompletion : Obligations.PollWaitsForTheCompletion := by
  intro s rest hInv hr htodo
  rcases Bool.eq_false_or_eq_true s.busy with hb | hb
  · obtain ⟨i, hi⟩ := hInv.exists_running hb
    obtain ⟨-, v, hv, hd⟩ := running_eq_some.1 hi
    obtain ⟨u, hu⟩ := exec_answers_next i s
    obtain ⟨hidle, -⟩ := exec_completed hu
    obtain ⟨k, t, hrun, htodo', hsame⟩ := run_poll_running hi hr htodo rfl hu
    exact ⟨k, t, hrun, by rw [hsame]; exact hidle, htodo', fun h => absurd h (by simp [hb]),
      fun _ => ⟨v, i, u, hv, hd, hu, hsame⟩⟩
  · obtain ⟨t, hstep, hsame, htodo'⟩ := step_poll_idle hb hr htodo
    exact ⟨1, t, run_succ_of_next (M := core) hstep 0, by rw [hsame]; exact hb, htodo', fun _ => hsame,
      fun h => absurd h (by simp [hb])⟩

end Sys2Proof.Machine
end

section
/-! The slice codec (40_slice_codec.md): ENC.L and ENC.U (R111–R114, R118). -/

namespace Sys2Proof.Machine

variable {i : Instr} {rom : Nibble → Byte} {s t : State} {m : Memory} {src dst : Addr} {k n q : Nat}

/-! ## Regions -/

theorem disjointRegions.symm {a b : Addr} (h : disjointRegions a k b n) : disjointRegions b n a k :=
  fun x hx y hy heq => h y hy x hx heq.symm

theorem byteAddr_ne {base : Addr} (hk : k < 2 ^ 32) (hq : q < 2 ^ 32) (h : k ≠ q) : byteAddr base k ≠ byteAddr base q :=
  fun heq => h (byteAddr_inj hk hq heq)

/-! ## How ENC completes -/

/-- ENC.x, said once: the loop when DST_LEN = 2·SRC_LEN as exact integers, and InvalidStringLength otherwise (R111, R113). -/
theorem exec_enc_cases (hi : encodesWith i rom) (s : State) :
    (s.dstLen.toNat = 2 * s.srcLen.toNat ∧
      exec i s = finish .ok { s with mem := encLoop rom s.srcAddr s.dstAddr s.srcLen.toNat 0 s.mem }) ∨
    (s.dstLen.toNat ≠ 2 * s.srcLen.toNat ∧ exec i s = finish .invalidStringLength s) := by
  rw [exec_of_encodesWith hi, ne_eq, ← encLengthOk_iff]
  cases hlen : encLengthOk s.srcLen s.dstLen with
  | true => exact .inl ⟨rfl, encodeSlice_ok hlen⟩
  | false => exact .inr ⟨Bool.false_ne_true, encodeSlice_error hlen⟩

theorem exec_enc_loop (hi : encodesWith i rom) (hlen : s.dstLen.toNat = 2 * s.srcLen.toNat) :
    exec i s = finish .ok { s with mem := encLoop rom s.srcAddr s.dstAddr s.srcLen.toNat 0 s.mem } := by
  rcases exec_enc_cases hi s with ⟨-, h⟩ | ⟨hne, -⟩
  · exact h
  · exact absurd hlen hne

/-- Settles O32: a SRC_LEN of 2^31 or more has no matching DST_LEN in 32 bits. -/
theorem encLengthCheckIsExact : Obligations.EncLengthCheckIsExact := by
  intro i rom s hi hlen
  have := s.dstLen.isLt
  rcases exec_enc_cases hi s with ⟨heq, -⟩ | ⟨-, h⟩
  · omega
  · exact h

/-- Settles O33: the loop on the canonical list is the fold on the byte map (`readByte_encLoop`). -/
theorem encIsThePseudocodeLoop : Obligations.EncIsThePseudocodeLoop := by
  intro i rom s hi hm
  rcases exec_enc_cases hi s with ⟨hlen, h⟩ | ⟨hlen, h⟩
  · refine ⟨_, h, rfl, rfl, rfl, rfl, fun _ => ⟨rfl, ?_⟩, absurd hlen⟩
    rw [encByteMap, List.range_eq_range']
    exact readByte_encLoop rom _ _ _ _ hm
  · exact ⟨_, h, rfl, rfl, rfl, rfl, fun heq => absurd heq hlen, fun _ => ⟨rfl, rfl⟩⟩

/-- Settles O35: only the loop writes memory, and it stays in the destination region. -/
theorem encChangesNothingElse : Obligations.EncChangesNothingElse := by
  intro i rom s t hi hm ht
  rcases exec_enc_cases hi s with ⟨hlen, h⟩ | ⟨hlen, h⟩ <;> cases h.symm.trans ht
  · exact ⟨rfl, fun _ a ha => readByte_encLoop_outside _ _ _ _ _ hm fun j _ hj => ha j (by omega), absurd hlen⟩
  · exact ⟨rfl, fun heq => absurd heq hlen, fun _ _ => rfl⟩

/-! ## The characters ENC writes -/

theorem encLoop_add (rom : Nibble → Byte) (src dst : Addr) (p r i : Nat) (m : Memory) :
    encLoop rom src dst (p + r) i m = encLoop rom src dst r (i + p) (encLoop rom src dst p i m) := by
  induction p generalizing i m with
  | zero => simp [encLoop]
  | succ p ih => rw [Nat.add_right_comm p 1 r, encLoop, ih, Nat.add_assoc, Nat.add_comm 1 p, encLoop]

/-- For every placement, the two characters of source byte `q` are those of that byte as the loop finds it, after `q` iterations:
later iterations write elsewhere (R111, 20_memory.md R64, R66). -/
theorem readByte_encLoop_pair (rom : Nibble → Byte) (src dst : Addr) (hm : Memory.wf m = true) (hq : q < n)
    (hn : 2 * n ≤ 2 ^ 32) :
    readByte (encLoop rom src dst n 0 m) (byteAddr dst (2 * q)) =
        rom (hiNibble (readByte (encLoop rom src dst q 0 m) (byteAddr src q))) ∧
      readByte (encLoop rom src dst n 0 m) (byteAddr dst (2 * q + 1)) =
        rom (loNibble (readByte (encLoop rom src dst q 0 m) (byteAddr src q))) := by
  obtain ⟨r, rfl⟩ : ∃ r, n = q + (r + 1) := ⟨n - q - 1, by omega⟩
  have hwf := wf_encLoop rom src dst q 0 hm
  have hwf₁ (v : Byte) := wf_writeByte hwf (byteAddr dst (2 * q)) v
  have hwf₂ (u v : Byte) := wf_writeByte (hwf₁ u) (byteAddr dst (2 * q + 1)) v
  rw [encLoop_add, Nat.zero_add, encLoop]
  constructor
  · rw [readByte_encLoop_outside _ _ _ _ _ (hwf₂ _ _) fun j _ _ => byteAddr_ne (by omega) (by omega) (by omega),
      readByte_writeByte_ne (hwf₁ _) _ (byteAddr_ne (by omega) (by omega) (by omega)), readByte_writeByte_self hwf]
  · rw [readByte_encLoop_outside _ _ _ _ _ (hwf₂ _ _) fun j _ _ => byteAddr_ne (by omega) (by omega) (by omega),
      readByte_writeByte_self (hwf₁ _)]

/-- With disjoint regions ENC finds every source byte as it was. -/
theorem readByte_encLoop_source (rom : Nibble → Byte) (hm : Memory.wf m = true)
    (hdisj : disjointRegions src n dst (2 * n)) {p : Nat} (hp : p ≤ n) (hq : q < n) :
    readByte (encLoop rom src dst p 0 m) (byteAddr src q) = readByte m (byteAddr src q) :=
  readByte_encLoop_outside _ _ _ _ _ hm fun j _ _ => hdisj q hq j (by omega)

/-- Settles O34: `readByte_encLoop_pair`, with the source byte as it was. -/
theorem encWritesTheHexText : Obligations.EncWritesTheHexText := by
  intro i rom s hi hm hlen hdisj
  have hexec := exec_enc_loop hi hlen
  obtain ⟨-, hframe, -⟩ := encChangesNothingElse i rom s _ hi hm hexec
  refine ⟨_, hexec, rfl, fun k hk => ?_, hframe hlen⟩
  have hlt := s.dstLen.isLt
  rw [hlen] at hdisj
  have hpair := readByte_encLoop_pair rom s.srcAddr s.dstAddr hm hk (by omega)
  rwa [readByte_encLoop_source rom hm hdisj hk.le hk] at hpair

theorem exists_nibble_of_encLoop (rom : Nibble → Byte) (src dst : Addr) (hm : Memory.wf m = true) (hk : k < 2 * n)
    (hn : 2 * n ≤ 2 ^ 32) : ∃ x, readByte (encLoop rom src dst n 0 m) (byteAddr dst k) = rom x := by
  obtain ⟨hhigh, hlow⟩ := readByte_encLoop_pair rom src dst hm (show k / 2 < n by omega) hn
  rcases Nat.mod_two_eq_zero_or_one k with hmod | hmod
  · rw [show 2 * (k / 2) = k by omega] at hhigh
    exact ⟨_, hhigh⟩
  · rw [show 2 * (k / 2) + 1 = k by omega] at hlow
    exact ⟨_, hlow⟩

/-- DEC_ROM inverts both encode ROMs (10_state.md R26). -/
theorem decRom_of_encodesWith (hi : encodesWith i rom) (x : Nibble) : (decRom (rom x)).toNat = x.toNat := by
  obtain ⟨-, hinverts, -⟩ := decodeRomInvertsTheEncodeRoms
  obtain ⟨hlo, hup⟩ := hinverts x
  obtain ⟨-, rfl⟩ | ⟨-, rfl⟩ := hi
  · exact hlo
  · exact hup

theorem valid_of_encodesWith (hi : encodesWith i rom) (x : Nibble) : valid (rom x) = true := by
  rw [valid_iff, decRom_of_encodesWith hi]
  omega

theorem nib_of_encodesWith (hi : encodesWith i rom) (x : Nibble) : nib (rom x) = x :=
  BitVec.eq_of_toNat_eq (by rw [nib_toNat, decRom_of_encodesWith hi]; omega)

/-- The entries of an encode ROM are the digits and the letters of its case (R118, 10_state.md R21, R22). -/
theorem digit_of_encodesWith (hi : encodesWith i rom) (x : Nibble) :
    (0x30 ≤ rom x ∧ rom x ≤ 0x39) ∨ (i = .encL ∧ 0x61 ≤ rom x ∧ rom x ≤ 0x66) ∨
      (i = .encU ∧ 0x41 ≤ rom x ∧ rom x ≤ 0x46) := by
  obtain ⟨hdigit, hletter⟩ := encodeRomsHoldTheDigits x
  obtain ⟨rfl, rfl⟩ | ⟨rfl, rfl⟩ := hi
  · rcases Nat.lt_or_ge 9 x.toNat with h | h
    · exact .inr (.inl ⟨rfl, by bv_omega⟩)
    · exact .inl (by bv_omega)
  · rcases Nat.lt_or_ge 9 x.toNat with h | h
    · exact .inr (.inr ⟨rfl, by bv_omega⟩)
    · exact .inl (by bv_omega)

/-- Settles O36: with ERR = 0 the loop ran, and each destination byte is an entry of the encode ROM. -/
theorem encodedBytesAreHexDigits : Obligations.EncodedBytesAreHexDigits := by
  intro i rom s t hi hm ht herr k hk
  have hlt := s.dstLen.isLt
  rcases exec_enc_cases hi s with ⟨hlen, h⟩ | ⟨-, h⟩ <;> cases h.symm.trans ht
  · obtain ⟨x, hx⟩ := exists_nibble_of_encLoop rom s.srcAddr s.dstAddr hm (hlen ▸ hk) (by omega)
    have hdigit := digit_of_encodesWith hi x
    have hascii : (rom x).toNat < 0x80 := by bv_omega
    simpa only [complete_mem, recordResult_mem, hx] using And.intro hdigit ⟨valid_of_encodesWith hi x, hascii⟩
  · exact absurd (show (3 : BitVec 2) = 0 from herr) (by decide)

end Sys2Proof.Machine
end

section
/-! The slice codec (40_slice_codec.md): DEC (R116–R121), and encoding and decoding together (R123–R126). -/

namespace Sys2Proof.Machine

variable {i : Instr} {rom : Nibble → Byte} {s t : State} {m : Memory} {src dst : Addr} {k n p : Nat}

/-! ## How DEC completes -/

/-- DEC, said once: OddLength, else InvalidStringLength, else the loop (R116, R117). -/
theorem exec_dec_cases (s : State) :
    (s.srcLen.toNat % 2 = 1 ∧ exec .dec s = finish .oddLength s) ∨
    (s.srcLen.toNat % 2 = 0 ∧ s.dstLen.toNat ≠ s.srcLen.toNat / 2 ∧ exec .dec s = finish .invalidStringLength s) ∨
    (s.srcLen.toNat = 2 * s.dstLen.toNat ∧
      exec .dec s = finish (decLoop s.srcAddr s.dstAddr s.dstLen.toNat 0 s.mem).2
        { s with mem := (decLoop s.srcAddr s.dstAddr s.dstLen.toNat 0 s.mem).1 }) := by
  simp only [exec, execDec, isOddLength_iff, decLengthOk_iff]
  split_ifs with hodd hlen
  · exact .inl ⟨hodd, rfl⟩
  · exact .inr (.inr ⟨by omega, rfl⟩)
  · exact .inr (.inl ⟨by omega, hlen, rfl⟩)

theorem exec_dec_loop (hlen : s.srcLen.toNat = 2 * s.dstLen.toNat) :
    exec .dec s = finish (decLoop s.srcAddr s.dstAddr s.dstLen.toNat 0 s.mem).2
      { s with mem := (decLoop s.srcAddr s.dstAddr s.dstLen.toNat 0 s.mem).1 } := by
  rcases exec_dec_cases s with ⟨hodd, -⟩ | ⟨-, hne, -⟩ | ⟨-, h⟩
  · omega
  · omega
  · exact h

/-- Settles O38: the two length errors of `exec_dec_cases`. -/
theorem decLengthErrorsComeFirst : Obligations.DecLengthErrorsComeFirst := by
  intro s
  rcases exec_dec_cases s with ⟨hodd, h⟩ | ⟨heven, hlen, h⟩ | ⟨hlen, -⟩
  · exact ⟨fun _ => h, fun _ _ => by omega⟩
  · exact ⟨fun _ => by omega, fun _ _ => h⟩
  · exact ⟨fun _ => by omega, fun _ _ => by omega⟩

/-- Settles O37: the loop on the canonical list is the fold on the byte map, with the fold's result (`readByte_decLoop`). -/
theorem decIsThePseudocodeLoop : Obligations.DecIsThePseudocodeLoop := by
  intro s hm
  rcases exec_dec_cases s with ⟨hodd, h⟩ | ⟨heven, hlen, h⟩ | ⟨hlen, h⟩
  · exact ⟨_, h, rfl, rfl, fun _ => ⟨rfl, rfl, rfl, rfl⟩, fun _ => by omega, fun _ => by omega⟩
  · exact ⟨_, h, rfl, rfl, fun _ => by omega, fun _ => ⟨rfl, rfl, rfl, rfl⟩, fun _ => by omega⟩
  · have hfold := readByte_decLoop s.srcAddr s.dstAddr s.dstLen.toNat 0 hm
    rw [← List.range_eq_range', ← decByteMap] at hfold
    have hresult := congrArg Prod.snd hfold
    refine ⟨_, h, rfl, rfl, fun _ => by omega, fun _ => by omega, fun _ => ⟨congrArg Prod.fst hfold, fun hok => ?_,
      fun c x hraise => ?_⟩⟩
    · rw [hresult.trans hok]
      exact ⟨rfl, rfl, rfl⟩
    · rw [hresult.trans hraise]
      exact ⟨rfl, rfl, rfl⟩

/-- Settles O42: only the loop writes memory, and it stays in the destination region. -/
theorem decChangesNothingElse : Obligations.DecChangesNothingElse := by
  intro s t hm ht
  rcases exec_dec_cases s with ⟨hodd, h⟩ | ⟨heven, hlen, h⟩ | ⟨hlen, h⟩ <;> cases h.symm.trans ht
  · exact ⟨rfl, fun _ => by omega, fun _ _ => rfl⟩
  · exact ⟨rfl, fun _ => by omega, fun _ _ => rfl⟩
  · exact ⟨rfl, fun _ a ha => readByte_decLoop_outside _ _ _ _ hm fun j _ hj => ha j (by omega), absurd hlen⟩

/-! ## One iteration -/

theorem decLoop_first_invalid {i : Nat} (h : valid (readByte m (byteAddr src (2 * i))) = false) :
    decLoop src dst (k + 1) i m =
      (m, .invalidHexCharacter (readByte m (byteAddr src (2 * i))) (BitVec.ofNat 32 (2 * i))) := by
  simp [decLoop, h]

theorem decLoop_second_invalid {i : Nat} (h₀ : valid (readByte m (byteAddr src (2 * i))) = true)
    (h₁ : valid (readByte m (byteAddr src (2 * i + 1))) = false) :
    decLoop src dst (k + 1) i m =
      (m, .invalidHexCharacter (readByte m (byteAddr src (2 * i + 1))) (BitVec.ofNat 32 (2 * i + 1))) := by
  simp [decLoop, h₀, h₁]

theorem decLoop_valid_pair {i : Nat} (h₀ : valid (readByte m (byteAddr src (2 * i))) = true)
    (h₁ : valid (readByte m (byteAddr src (2 * i + 1))) = true) :
    decLoop src dst (k + 1) i m =
      decLoop src dst k (i + 1) (writeByte m (byteAddr dst i) (decodedByte src (readByte m) i)) := by
  simp [decLoop, h₀, h₁, decodedByte]

/-- After iterations that raised nothing the loop goes on where they ended. -/
theorem decLoop_add {i : Nat} (h : (decLoop src dst p i m).2 = .ok) (r : Nat) :
    decLoop src dst (p + r) i m = decLoop src dst r (i + p) (decLoop src dst p i m).1 := by
  induction p generalizing i m with
  | zero => simp [decLoop]
  | succ p ih =>
    rw [Nat.add_right_comm p 1 r]
    cases h₀ : valid (readByte m (byteAddr src (2 * i))) with
    | false => rw [decLoop_first_invalid h₀] at h; cases h
    | true =>
      cases h₁ : valid (readByte m (byteAddr src (2 * i + 1))) with
      | false => rw [decLoop_second_invalid h₀ h₁] at h; cases h
      | true =>
        rw [decLoop_valid_pair h₀ h₁] at h ⊢
        rw [decLoop_valid_pair h₀ h₁, ih h, Nat.add_assoc, Nat.add_comm 1 p]

/-! ## Reads ahead of writes -/

/-- No pair's byte is written over a character of a later pair, for `n` characters: DEC then sees the original text
(R121, 20_memory.md R66). -/
def writesTrailReads (src dst : Addr) (n : Nat) : Prop :=
  ∀ j c, 2 * (j + 1) ≤ c → c < n → byteAddr src c ≠ byteAddr dst j

theorem writesTrailReads_of_disjoint (h : disjointRegions src k dst n) (hk : k ≤ 2 * n) : writesTrailReads src dst k :=
  fun j c _ hc => h c hc j (by omega)

theorem writesTrailReads_inPlace (hn : n ≤ 2 ^ 32) : writesTrailReads src src n :=
  fun _ _ _ _ => byteAddr_ne (by omega) (by omega) (by omega)

theorem writesTrailReads.mono (h : writesTrailReads src dst n) (hk : k ≤ n) : writesTrailReads src dst k :=
  fun j c hj hc => h j c hj (by omega)

/-- The characters from pair `p` on are as they were when the loop reaches it. -/
theorem readByte_decLoop_unread (h : writesTrailReads src dst n) (hm : Memory.wf m = true) (hp : 2 * p ≤ k) (hk : k < n) :
    readByte (decLoop src dst p 0 m).1 (byteAddr src k) = readByte m (byteAddr src k) :=
  readByte_decLoop_outside _ _ _ _ hm fun j _ _ => h j k (by omega) hk

/-- A text of hex digits is decoded, pair by pair, when no write runs ahead of the reads (R116, R119). -/
theorem decLoop_decodes (htrail : writesTrailReads src dst (2 * n)) (hm : Memory.wf m = true) (hn : n ≤ 2 ^ 32)
    (hvalid : ∀ k < 2 * n, valid (readByte m (byteAddr src k)) = true) :
    (decLoop src dst n 0 m).2 = .ok ∧
      ∀ j < n, readByte (decLoop src dst n 0 m).1 (byteAddr dst j) = decodedByte src (readByte m) j := by
  induction n with
  | zero => exact ⟨rfl, nofun⟩
  | succ n ih =>
    obtain ⟨hok, hbytes⟩ := ih (htrail.mono (by omega)) (by omega) fun k hk => hvalid k (by omega)
    have hwf := wf_decLoop src dst n 0 hm
    have h₀ := readByte_decLoop_unread htrail hm (le_refl (2 * n)) (by omega)
    have h₁ := readByte_decLoop_unread htrail hm (show 2 * n ≤ 2 * n + 1 by omega) (by omega)
    rw [decLoop_add hok, Nat.zero_add, decLoop_valid_pair (by rw [h₀]; exact hvalid _ (by omega))
      (by rw [h₁]; exact hvalid _ (by omega)), decodedByte, h₀, h₁, ← decodedByte]
    refine ⟨rfl, fun j hj => ?_⟩
    rcases Nat.lt_succ_iff_lt_or_eq.1 hj with hlt | rfl
    · exact (readByte_writeByte_ne hwf _ (byteAddr_ne (by omega) (by omega) (by omega))).trans (hbytes j hlt)
    · exact readByte_writeByte_self hwf _ _

/-- At the first character that is no hex digit the loop stops, after the pairs before its own (R116, R120). -/
theorem decLoop_stops (htrail : writesTrailReads src dst (2 * n)) (hm : Memory.wf m = true) (hn : n ≤ 2 ^ 32)
    (hk : k < 2 * n) (hbad : valid (readByte m (byteAddr src k)) = false)
    (hgood : ∀ j < k, valid (readByte m (byteAddr src j)) = true) :
    decLoop src dst n 0 m = ((decLoop src dst (k / 2) 0 m).1,
      .invalidHexCharacter (readByte m (byteAddr src k)) (BitVec.ofNat 32 k)) := by
  obtain ⟨hok, -⟩ := decLoop_decodes (n := k / 2) (htrail.mono (by omega)) hm (by omega) fun j hj => hgood j (by omega)
  obtain ⟨r, hr⟩ : ∃ r, n = k / 2 + (r + 1) := ⟨n - k / 2 - 1, by omega⟩
  have h₀ := readByte_decLoop_unread htrail hm (le_refl (2 * (k / 2))) (by omega)
  rw [hr, decLoop_add hok, Nat.zero_add]
  rcases Nat.mod_two_eq_zero_or_one k with hmod | hmod
  · have hpair : 2 * (k / 2) = k := by omega
    rw [hpair] at h₀
    rw [decLoop_first_invalid (by rw [hpair, h₀]; exact hbad), hpair, h₀]
  · have hpair : 2 * (k / 2) + 1 = k := by omega
    have h₁ := readByte_decLoop_unread htrail hm (show 2 * (k / 2) ≤ k by omega) hk
    rw [decLoop_second_invalid (by rw [h₀]; exact hgood _ (by omega)) (by rw [hpair, h₁]; exact hbad), hpair, h₁]

/-! ## DEC on disjoint regions and in place -/

theorem exec_dec_decodes (hm : Memory.wf s.mem = true) (hlen : s.srcLen.toNat = 2 * s.dstLen.toNat)
    (htrail : writesTrailReads s.srcAddr s.dstAddr s.srcLen.toNat)
    (hvalid : ∀ k < s.srcLen.toNat, valid (readByte s.mem (byteAddr s.srcAddr k)) = true) :
    ∃ t, exec .dec s = .next t ∧ t.err = 0 ∧ t.errChar = 0 ∧ t.errIndex = 0 ∧
      (∀ j < s.dstLen.toNat, readByte t.mem (byteAddr s.dstAddr j) = decodedByte s.srcAddr (readByte s.mem) j) ∧
      sameMemoryOutside s.dstAddr s.dstLen.toNat s t := by
  have hexec := exec_dec_loop hlen
  obtain ⟨-, hframe, -⟩ := decChangesNothingElse s _ hm hexec
  rw [hlen] at htrail hvalid
  obtain ⟨hok, hbytes⟩ := decLoop_decodes htrail hm s.dstLen.isLt.le hvalid
  rw [hok] at hexec
  exact ⟨_, hexec, rfl, rfl, rfl, hbytes, hframe hlen⟩

theorem joinNibbles_toNat (h l : Nibble) : (joinNibbles h l).toNat = 16 * h.toNat + l.toNat := by
  have hh := h.isLt
  have hl := l.isLt
  have hshift : (h.setWidth 8 <<< 4).toNat = h.toNat <<< 4 := by
    simp only [BitVec.toNat_shiftLeft, BitVec.toNat_setWidth, Nat.shiftLeft_eq]
    omega
  rw [joinNibbles, BitVec.toNat_or, hshift, BitVec.toNat_setWidth_of_le (by decide), ← Nat.shiftLeft_add_eq_or_of_lt hl,
    Nat.shiftLeft_eq]
  omega

/-- Settles O39: `exec_dec_decodes`, with the joined nibbles as a number. -/
theorem decDecodesHexText : Obligations.DecDecodesHexText := by
  intro s hm hlen hdisj hvalid
  obtain ⟨-, -, -, hnib⟩ := decodeRomInvertsTheEncodeRoms
  have htrail := writesTrailReads_of_disjoint hdisj hlen.le
  obtain ⟨t, hexec, herr, hchar, hindex, hbytes, hframe⟩ := exec_dec_decodes hm hlen htrail hvalid
  refine ⟨t, hexec, herr, hchar, hindex, fun i hi => ?_, hframe⟩
  rw [hbytes i hi, decodedByte, joinNibbles_toNat, hnib _ (hvalid _ (by omega)), hnib _ (hvalid _ (by omega))]

/-- Settles O40: `decLoop_stops`, and the pairs before the character's own are decoded. -/
theorem decStopsAtTheFirstInvalidCharacter : Obligations.DecStopsAtTheFirstInvalidCharacter := by
  intro s k hm hlen hdisj hk hbad hgood
  have hlt := s.srcLen.isLt
  have hexec := exec_dec_loop hlen
  rw [hlen] at hdisj hk
  have htrail := writesTrailReads_of_disjoint hdisj le_rfl
  obtain ⟨-, hbytes⟩ := decLoop_decodes (n := k / 2) (htrail.mono (by omega)) hm (by omega) fun j hj => hgood j (by omega)
  rw [decLoop_stops htrail hm (by omega) hk hbad hgood] at hexec
  refine ⟨_, hexec, rfl, rfl, Nat.mod_eq_of_lt (by omega), hbytes, fun a ha => ?_⟩
  exact readByte_decLoop_outside _ _ _ _ hm fun j _ hj => ha j (by omega)

/-- Settles O41: in place byte `j` is written over characters of pairs up to `j` only. -/
theorem decInPlaceDecodesTheOriginalText : Obligations.DecInPlaceDecodesTheOriginalText := by
  intro s hm hlen hplace hvalid
  have htrail : writesTrailReads s.srcAddr s.dstAddr s.srcLen.toNat := by
    rw [hplace]
    exact writesTrailReads_inPlace s.srcLen.isLt.le
  obtain ⟨t, hexec, herr, -, -, hbytes, hframe⟩ := exec_dec_decodes hm hlen htrail hvalid
  exact ⟨t, hexec, herr, hbytes, hframe⟩

/-! ## Encoding and decoding together -/

theorem joinNibbles_hi_lo (b : Byte) : joinNibbles (hiNibble b) (loNibble b) = b := by
  refine BitVec.eq_of_toNat_eq ?_
  have := b.isLt
  rw [joinNibbles_toNat, hiNibble, loNibble, BitVec.extractLsb'_toNat, BitVec.extractLsb'_toNat]
  simp only [Nat.shiftRight_eq_div_pow]
  omega

/-- Settles O43: the text's pairs are the nibbles of the source bytes, which DEC joins again; neither command writes in S. -/
theorem decodingAnEncodingGivesItBack : Obligations.DecodingAnEncodingGivesItBack := by
  rintro i rom s n2 n src txt dst hi hm - hlen hsrctxt hdsttxt hsrcdst rfl rfl rfl rfl
  obtain ⟨t, ht, herr, hpairs, hkeep⟩ := encWritesTheHexText i rom s hi hm hlen hsrctxt
  have hvalid : ∀ k < s.dstLen.toNat, valid (readByte t.mem (byteAddr s.dstAddr k)) = true := fun k hk =>
    have ⟨_, hv, _⟩ := encodedBytesAreHexDigits i rom s t hi hm ht herr k hk
    hv
  have hm' := wf_exec hm ht
  obtain ⟨u, hu, hok, -, -, hbytes, hkeep'⟩ := exec_dec_decodes
    (s := { t with srcAddr := s.dstAddr, srcLen := s.dstLen, dstAddr := dst, dstLen := s.srcLen })
    hm' hlen (writesTrailReads_of_disjoint hdsttxt.symm hlen.le) hvalid
  refine ⟨t, u, ht, herr, hu, hok, fun k hk => ⟨?_, ?_⟩⟩
  · obtain ⟨hhigh, hlow⟩ := hpairs k hk
    calc readByte u.mem (byteAddr dst k)
        = joinNibbles (nib (readByte t.mem (byteAddr s.dstAddr (2 * k))))
            (nib (readByte t.mem (byteAddr s.dstAddr (2 * k + 1)))) := hbytes k hk
      _ = readByte s.mem (byteAddr s.srcAddr k) := by
        rw [hhigh, hlow, nib_of_encodesWith hi, nib_of_encodesWith hi, joinNibbles_hi_lo]
  · exact (hkeep' _ (hsrcdst k hk)).trans (hkeep _ (hsrctxt k hk))

/-- DEC_ROM gives a letter the same value in either case (R125, 10_state.md R24). -/
theorem decRom_of_sameButCase {c d : Byte} (h : sameButCase c d) : decRom d = decRom c := by
  obtain rfl | hcase := h
  · rfl
  · have hc := decRom_cases c
    have hd := decRom_cases d
    bv_omega

/-- Settles O44: characters that differ in case only have the same nibble, and are hex digits together. -/
theorem decodingIgnoresLetterCase : Obligations.DecodingIgnoresLetterCase := by
  intro s s' hm hm' hlen hsrc hdst hdisj hdisj' htexts
  have hrom : ∀ k < s.srcLen.toNat, decRom (readByte s'.mem (byteAddr s'.srcAddr k)) =
      decRom (readByte s.mem (byteAddr s.srcAddr k)) := fun k hk =>
    have ⟨_, hsame⟩ := htexts k hk
    decRom_of_sameButCase hsame
  have hvalid : ∀ k < s.srcLen.toNat, valid (readByte s.mem (byteAddr s.srcAddr k)) = true := fun k hk =>
    have ⟨hv, _⟩ := htexts k hk
    hv
  have hvalid' : ∀ k < s'.srcLen.toNat, valid (readByte s'.mem (byteAddr s'.srcAddr k)) = true := fun k hk => by
    rw [hsrc] at hk
    rw [valid, hrom k hk]
    exact hvalid k hk
  have hlen' : s'.srcLen.toNat = 2 * s'.dstLen.toNat := by rw [hsrc, hdst, hlen]
  obtain ⟨t, ht, herr, -, -, hbytes, -⟩ :=
    exec_dec_decodes hm hlen (writesTrailReads_of_disjoint hdisj hlen.le) hvalid
  obtain ⟨t', ht', herr', -, -, hbytes', -⟩ :=
    exec_dec_decodes hm' hlen' (writesTrailReads_of_disjoint hdisj' hlen'.le) hvalid'
  refine ⟨t, t', ht, ht', herr, herr', fun j hj => ?_⟩
  rw [hbytes j hj, hbytes' j (by rwa [hdst])]
  simp only [decodedByte, nib, hrom _ (show 2 * j < s.srcLen.toNat by omega),
    hrom _ (show 2 * j + 1 < s.srcLen.toNat by omega)]

/-- Settles O45: each outcome of ENC.x and of DEC has its own condition, and a text that is not all hex digits has a first
character that is none. -/
theorem encodingIsTotalDecodingIsPartial : Obligations.EncodingIsTotalDecodingIsPartial := by
  intro s hm hdisj
  refine ⟨fun i rom hi => ?_, ?_⟩
  · rcases exec_enc_cases hi s with ⟨hlen, h⟩ | ⟨hlen, h⟩
    · exact ⟨_, h, fun hne => absurd rfl hne, absurd hlen⟩
    · exact ⟨_, h, fun _ => hlen, fun _ => by simp [CmdResult.code]⟩
  · rcases exec_dec_cases s with ⟨hodd, h⟩ | ⟨heven, hlen, h⟩ | ⟨hlen, -⟩
    · exact ⟨_, h, fun _ => .inl hodd, fun _ => by simp [CmdResult.code]⟩
    · exact ⟨_, h, fun _ => .inr (.inl hlen), fun _ => by simp [CmdResult.code]⟩
    · by_cases hbad : ∃ k, k < s.srcLen.toNat ∧ valid (readByte s.mem (byteAddr s.srcAddr k)) = false
      · obtain ⟨hk, hinvalid⟩ := Nat.find_spec hbad
        obtain ⟨t, ht, herr, -⟩ := decStopsAtTheFirstInvalidCharacter s (Nat.find hbad) hm hlen hdisj hk hinvalid
          fun j hj => by simpa [hj.trans hk] using Nat.find_min hbad hj
        exact ⟨t, ht, fun _ => .inr (.inr hbad), fun _ => by simp [herr]⟩
      · have hvalid : ∀ k < s.srcLen.toNat, valid (readByte s.mem (byteAddr s.srcAddr k)) = true := by simpa using hbad
        obtain ⟨t, ht, herr, -⟩ := exec_dec_decodes hm hlen (writesTrailReads_of_disjoint hdisj hlen.le) hvalid
        exact ⟨t, ht, fun hne => absurd herr hne, fun hfail =>
          absurd ((hfail.resolve_left (by omega)).resolve_left (by omega)) hbad⟩

end Sys2Proof.Machine
end

section
/-! Owned-buffer pseudo-instructions (41_owned_buffer.md): R140–R146. -/

namespace Sys2Proof.Machine

variable {s t u : State} {i : Instr} {src dst : Addr} {n m : Word} {rest : List HostAction}

/-! ## Runs -/

/-- Some number of steps leads from `s` to `t`. -/
def reaches (s t : State) : Prop := ∃ k, core.run k s = .next t

theorem reaches.refl (s : State) : reaches s s := ⟨0, rfl⟩

theorem reaches_of_step (h : step s = .next t) : reaches s t := ⟨1, run_succ_of_next (M := core) h 0⟩

theorem run_add_of_next {j : Nat} (h : core.run j s = .next t) (k : Nat) : core.run (j + k) s = core.run k t := by
  induction j generalizing s with
  | zero => cases h; rw [Nat.zero_add]
  | succ j ih =>
    rw [Nat.add_right_comm]
    simp only [Host.Core.run] at h ⊢
    split at h
    · exact ih h
    · cases h
    · cases h

theorem reaches.trans (hst : reaches s t) (htu : reaches t u) : reaches s u := by
  obtain ⟨j, hj⟩ := hst
  obtain ⟨k, hk⟩ := htu
  exact ⟨j + k, (run_add_of_next hj k).trans hk⟩

/-! ## The lines of an expansion on an idle block -/

/-- `wr` is BusWrite (30_encoding.md R81, R95). -/
theorem reaches_wr {r : Reg} {v : Word} (hb : s.busy = false) (hr : s.resetAsserted = false)
    (htodo : s.env.todo = wr r v :: rest) :
    reaches s (busWrite (slotOf (regOffset r)) v { s with env.todo := rest }) := by
  refine reaches_of_step ((step_hostTakes ⟨.inl hb, htodo⟩).trans ?_)
  rw [envAfter_of_idle hb, ← hostBusWrite_eq_busWrite (by exact hr)]
  rfl

/-- `rd` is BusRead (30_encoding.md R82, R95). -/
theorem reaches_rd {r : Reg} (hb : s.busy = false) (htodo : s.env.todo = rd r :: rest) :
    reaches s (hostBusRead (regOffset r) { s with env.todo := rest }) := by
  refine reaches_of_step ((step_hostTakes ⟨.inl hb, htodo⟩).trans ?_)
  rw [envAfter_of_idle hb]
  rfl

/-- The operand registers hold the written values (41_owned_buffer.md R140). -/
def withOperands (src n dst m : Word) (s : State) : State :=
  { s with srcAddr := src, srcLen := n, dstAddr := dst, dstLen := m }

/-- With BUSY = 0 and reset released as literals each of the four writes computes. -/
theorem reaches_wrOperands (hb : s.busy = false) (hr : s.resetAsserted = false)
    (htodo : s.env.todo = wrOperands src n dst m ++ rest) :
    reaches s { withOperands src n dst m s with env.todo := rest } := by
  cases s
  cases hb
  cases hr
  refine (reaches_wr rfl rfl htodo).trans ?_
  refine (reaches_wr rfl rfl rfl).trans ?_
  refine (reaches_wr rfl rfl rfl).trans ?_
  refine (reaches_wr rfl rfl rfl).trans ?_
  exact reaches.refl _

/-- The three reads an expansion of DECODE ends with (41_owned_buffer.md R145). -/
theorem reaches_readRecord (hb : s.busy = false) (hr : s.resetAsserted = false)
    (htodo : s.env.todo = rd .status :: rd .errChar :: rd .errIndex :: rest) :
    reaches s { s with env := { s.env with
      todo := rest
      seen := .reg 0x1C (some s.errIndex) :: .reg 0x18 (some (errCharWord s)) :: .reg 0x04 (some (statusWord s)) ::
        s.env.seen } } := by
  cases s
  cases hb
  cases hr
  refine (reaches_rd rfl htodo).trans ?_
  refine (reaches_rd rfl rfl).trans ?_
  refine (reaches_rd rfl rfl).trans ?_
  exact reaches.refl _

/-! ## A command and its poll -/

/-- A command reads none of the fields acceptance sets, and of those only BADCMD and the outside world's side are not set by
its completion (30_encoding.md R85, R86). -/
theorem exec_with_issue (h : exec i s = .next u) (l : Option Word) (b d bc : Bool) (e : Env) :
    exec i { s with latch := l, busy := b, done := d, badcmd := bc, env := e } =
      .next { u with badcmd := bc, env := e } := by
  cases i with
  | encL | encU | dec | inext =>
    simp only [exec, execEncL, execEncU, encodeSlice, execDec, execInext] at h ⊢
    split_ifs at h ⊢ <;> cases h <;> rfl
  | iloadL | iloadU | tblrdEL idx | tblrdEU idx | tblrdD idx => cases h; rfl

/-- A command followed by `poll` ends in the command's completion, with every latency (30_encoding.md R85, R86, R96). -/
theorem reaches_command_poll (hi : i.wellFormed = true) (hb : s.busy = false) (hr : s.resetAsserted = false)
    (htodo : s.env.todo = command i :: .poll :: rest) (hu : exec i s = .next u) :
    ∃ e : Env, reaches s { u with badcmd := false, env := e } ∧ e.todo = rest := by
  have hdecode := decode_encode hi
  have haccept := reaches_wr hb hr htodo
  obtain ⟨hissue, -⟩ := busWrite_idle (s := { s with env.todo := .poll :: rest }) hb (slotOf (regOffset .cmd)) (encode i)
  rw [hissue rfl, issue_instr hdecode] at haccept
  obtain ⟨k, t, hrun, htodo', hsame⟩ := run_poll_running (s := accept (encode i) { s with env.todo := .poll :: rest })
    (running_eq_some.2 ⟨rfl, encode i, rfl, hdecode⟩) hr (drawLatency_todo _) rfl (exec_with_issue hu _ _ _ _ _)
  exact ⟨t.env, haccept.trans ⟨k, hsame ▸ hrun⟩, htodo'⟩

/-- What every expansion of 41_owned_buffer.md starts with: its command completes on the operands it wrote (R140, R147). -/
theorem reaches_delegate (hi : i.wellFormed = true) (hb : s.busy = false) (hr : s.resetAsserted = false)
    (htodo : s.env.todo = wrOperands src n dst m ++ command i :: .poll :: rest)
    (hu : exec i (withOperands src n dst m s) = .next u) :
    ∃ e : Env, reaches s { u with badcmd := false, env := e } ∧ e.todo = rest := by
  obtain ⟨e, hrun, he⟩ := reaches_command_poll
    (s := { withOperands src n dst m s with env.todo := command i :: .poll :: rest }) hi hb hr rfl (exec_with_env hu _)
  exact ⟨e, (reaches_wrOperands hb hr htodo).trans hrun, he⟩

/-! ## ENCODE and ENCODE_UPPER -/

theorem encodeWith_eq_some_iff {n : Nat} {acts : List HostAction} : encodeWith i src n dst = some acts ↔
    n < 2 ^ 31 ∧ acts = wrOperands src (BitVec.ofNat 32 n) dst (BitVec.ofNat 32 (2 * n)) ++ [command i, .poll] := by
  simp [encodeWith, eq_comm]

theorem encodeWith_eq_none_iff {n : Nat} : encodeWith i src n dst = none ↔ 2 ^ 31 ≤ n := by
  simp [encodeWith]

/-- The ENC command of a case (30_encoding.md R88). -/
def encOfCase (upper : Bool) : Instr := if upper then .encU else .encL

theorem pseudoEncode_of_case (upper : Bool) (src : Addr) (n : Nat) (dst : Addr) :
    (if upper then pseudoEncodeUpper src n dst else pseudoEncode src n dst) =
      encodeWith (encOfCase upper) src n dst := by
  cases upper <;> rfl

theorem encodesWith_encOfCase (upper : Bool) : encodesWith (encOfCase upper) (romOfCase upper) := by
  cases upper
  · exact .inl ⟨rfl, rfl⟩
  · exact .inr ⟨rfl, rfl⟩

theorem wellFormed_encOfCase (upper : Bool) : (encOfCase upper).wellFormed = true := by cases upper <;> rfl

/-- ENC.x on disjoint regions, character by character (R111, R112): character `j` is from source byte `j / 2`. -/
theorem exec_enc_encodes {rom : Nibble → Byte} (hi : encodesWith i rom) (hm : Memory.wf s.mem = true)
    (hlen : s.dstLen.toNat = 2 * s.srcLen.toNat)
    (hdisj : disjointRegions s.srcAddr s.srcLen.toNat s.dstAddr s.dstLen.toNat) :
    ∃ t, exec i s = .next t ∧ t.err = 0 ∧
      (∀ j < 2 * s.srcLen.toNat,
        readByte t.mem (byteAddr s.dstAddr j) = encodedChar rom s.srcAddr (readByte s.mem) j) ∧
      sameMemoryOutside s.dstAddr s.dstLen.toNat s t := by
  obtain ⟨t, ht, herr, hpairs, hkeep⟩ := encWritesTheHexText i rom s hi hm hlen hdisj
  refine ⟨t, ht, herr, fun j hj => ?_, hkeep⟩
  obtain ⟨hhigh, hlow⟩ := hpairs (j / 2) (by omega)
  rcases Nat.mod_two_eq_zero_or_one j with hmod | hmod
  · rw [show 2 * (j / 2) = j by omega] at hhigh
    simp only [encodedChar, hmod, if_true, hhigh]
  · rw [show 2 * (j / 2) + 1 = j by omega] at hlow
    simp only [encodedChar, hmod, one_ne_zero, if_false, hlow]

/-- Settles O54: the expansion is ENC.x on the operands it writes, whose lengths match because 2n fits 32 bits. -/
theorem encodePseudoInstructionEncodes : Obligations.EncodePseudoInstructionEncodes := by
  intro upper src dst n
  rw [pseudoEncode_of_case]
  refine ⟨encodeWith_eq_none_iff, fun s acts rest hInv hb hr hacts htodo hdisj => ?_⟩
  obtain ⟨hn, rfl⟩ := encodeWith_eq_some_iff.1 hacts
  have hsrcLen : (BitVec.ofNat 32 n).toNat = n := Nat.mod_eq_of_lt (by omega)
  have hdstLen : (BitVec.ofNat 32 (2 * n)).toNat = 2 * n := Nat.mod_eq_of_lt (by omega)
  have henc := exec_enc_encodes (s := withOperands src (BitVec.ofNat 32 n) dst (BitVec.ofNat 32 (2 * n)) s)
    (encodesWith_encOfCase upper) hInv.mem_wf
  simp only [withOperands, hsrcLen, hdstLen] at henc
  obtain ⟨u, hu, herr, hchars, hkeep⟩ := henc trivial hdisj
  obtain ⟨hidle, -, -, ⟨hsrc, hlen, hdst, hlen'⟩, -⟩ := exec_completed hu
  obtain ⟨e, ⟨k, hrun⟩, he⟩ := reaches_delegate (wellFormed_encOfCase upper) hb hr htodo hu
  exact ⟨k, _, hrun, he, hidle, herr, hsrc, hlen ▸ hsrcLen, hdst, hlen' ▸ hdstLen, hchars, hkeep⟩

/-! ## ENCODE_APPEND and ENCODE_APPEND_UPPER -/

theorem appendWith_eq_some_iff {base : Addr} {n len newLen : Nat} {acts : List HostAction} :
    appendWith i src n base len = some (acts, newLen) ↔
      n < 2 ^ 31 ∧ len + 2 * n < 2 ^ 32 ∧ newLen = len + 2 * n ∧ encodeWith i src n (byteAddr base len) = some acts := by
  rw [encodeWith_eq_some_iff, appendWith]
  split_ifs with hfits
  · simp only [Option.map_eq_some_iff, encodeWith_eq_some_iff, Prod.mk.injEq]
    constructor
    · rintro ⟨_, ⟨hn, rfl⟩, rfl, rfl⟩
      exact ⟨hn, hfits, rfl, hn, rfl⟩
    · rintro ⟨hn, -, rfl, -, rfl⟩
      exact ⟨_, ⟨hn, rfl⟩, rfl, rfl⟩
  · exact iff_of_false nofun fun ⟨_, h, _⟩ => hfits h

/-- Settles O57: both appends are `appendWith`, for their ENC command. -/
theorem appendIsEncodeAtTheEnd : Obligations.AppendIsEncodeAtTheEnd :=
  fun _ _ _ _ _ _ => ⟨appendWith_eq_some_iff, appendWith_eq_some_iff⟩

/-! ## DECODE and DECODE_N -/

/-- DECODE_N ends in DEC's completion on the operands it wrote, with the error record read (R146, R147). -/
theorem reaches_decodeN (hb : s.busy = false) (hr : s.resetAsserted = false)
    (htodo : s.env.todo = pseudoDecodeN src n dst m ++ rest) (hu : exec .dec (withOperands src n dst m s) = .next u) :
    ∃ (e : Env) (seen : List Observation), reaches s { u with badcmd := false, env := e } ∧ e.todo = rest ∧
      e.seen = .reg 0x1C (some u.errIndex) :: .reg 0x18 (some (errCharWord u)) ::
        .reg 0x04 (some (statusWord { u with badcmd := false })) :: seen := by
  obtain ⟨hidle, -, -, -, -, hreset, -⟩ := exec_completed hu
  obtain ⟨e, hrun, he⟩ := reaches_delegate rfl hb hr htodo hu
  exact ⟨_, e.seen, hrun.trans (reaches_readRecord hidle (hreset.trans hr) he), rfl, rfl⟩

theorem code_decLoop_ne_three (src dst : Addr) (k i : Nat) (m : Memory) : (decLoop src dst k i m).2.code ≠ 3 := by
  induction k generalizing i m with
  | zero => simp [decLoop, CmdResult.code]
  | succ k ih =>
    simp only [decLoop]
    split_ifs
    · simp [CmdResult.code]
    · simp [CmdResult.code]
    · exact ih _ _

/-- With DST_LEN = floor(SRC_LEN/2) there is no InvalidStringLength (41_owned_buffer.md R145). -/
theorem exec_dec_err_ne_three (hlen : s.dstLen.toNat = s.srcLen.toNat / 2) (h : exec .dec s = .next t) : t.err ≠ 3 := by
  rcases exec_dec_cases s with ⟨-, h'⟩ | ⟨-, hne, -⟩ | ⟨-, h'⟩
  · cases h'.symm.trans h
    simp [CmdResult.code]
  · exact absurd hlen hne
  · cases h'.symm.trans h
    exact code_decLoop_ne_three _ _ _ _ _

/-- Settles O55: the expansion is DEC with DST_LEN = floor(n/2), whose outcomes are O38's, `exec_dec_decodes` and O40's. -/
theorem decodePseudoInstructionDecodes : Obligations.DecodePseudoInstructionDecodes := by
  intro s src dst n rest hInv hb hr htodo hdisj
  have hhalf : (n >>> 1).toNat = n.toNat / 2 := by rw [BitVec.toNat_ushiftRight, Nat.shiftRight_eq_div_pow, pow_one]
  rw [← hhalf] at hdisj ⊢
  let w := withOperands src n dst (n >>> 1) s
  obtain ⟨u, hu⟩ := exec_answers_next .dec w
  obtain ⟨hidle, -, -, ⟨hsrc, hlen, hdst, hlen'⟩, -⟩ := exec_completed hu
  obtain ⟨e, seen, ⟨k, hrun⟩, he, hseen⟩ := reaches_decodeN hb hr htodo hu
  have hpairs (heven : n.toNat % 2 = 0) : w.srcLen.toNat = 2 * w.dstLen.toNat :=
    show n.toNat = 2 * (n >>> 1).toNat by omega
  have herr : u.err ≠ 3 := exec_dec_err_ne_three (s := w) hhalf hu
  refine ⟨k, _, seen, hrun, he, hidle, herr, hsrc, hlen, hdst, congrArg _ hlen', hseen, fun hodd => ?_,
    fun heven hvalid => ?_, fun j hj heven hbad hgood => ?_⟩
  · obtain ⟨hparity, -⟩ := decLengthErrorsComeFirst w
    cases (hparity hodd).symm.trans hu
    exact ⟨rfl, fun _ => rfl⟩
  · have htrail := writesTrailReads_of_disjoint hdisj (by omega)
    obtain ⟨t, ht, hok, -, -, hbytes, hkeep⟩ := exec_dec_decodes (s := w) hInv.mem_wf (hpairs heven) htrail hvalid
    cases ht.symm.trans hu
    exact ⟨hok, hbytes, hkeep⟩
  · obtain ⟨t, ht, hraise, hchar, hindex, hbytes, hkeep⟩ :=
      decStopsAtTheFirstInvalidCharacter w j hInv.mem_wf (hpairs heven) hdisj hj hbad hgood
    cases ht.symm.trans hu
    exact ⟨hraise, hchar, hindex, hbytes, hkeep⟩

/-- Settles O56: the expansion is DEC on the operands it writes, and DEC checks parity and then the length (O38). -/
theorem decodeNEnforcesTheContainerLength : Obligations.DecodeNEnforcesTheContainerLength := by
  intro s src dst n capacity rest hInv hb hr htodo
  obtain ⟨u, hu⟩ := exec_answers_next .dec (withOperands src n dst capacity s)
  obtain ⟨hidle, -⟩ := exec_completed hu
  obtain ⟨hparity, hlength⟩ := decLengthErrorsComeFirst (withOperands src n dst capacity s)
  obtain ⟨e, -, ⟨k, hrun⟩, he, -⟩ := reaches_decodeN hb hr htodo hu
  refine ⟨k, _, hrun, he, hidle, fun hodd => ?_, fun heven hne => ?_, fun _ _ => ⟨u, hu, ⟨rfl, rfl, rfl⟩, fun _ => rfl⟩⟩
  · cases (hparity hodd).symm.trans hu
    exact ⟨rfl, fun _ => rfl⟩
  · cases (hlength heven hne.symm).symm.trans hu
    exact ⟨rfl, fun _ => rfl⟩

end Sys2Proof.Machine
end

section
/-! The iterator (42_iterator.md): ILOAD.x and INEXT (R160–R165). -/

namespace Sys2Proof.Machine

variable {s t u : State} {upper : Bool} {src dst : Addr} {n k : Nat} {f : ByteMap} {rest : List HostAction}

/-! ## Who changes the iterator -/

theorem encodeSlice_sameIterator {rom : Nibble → Byte} (h : encodeSlice rom s = .next t) : sameIterator s t := by
  unfold encodeSlice at h
  split_ifs at h <;> cases h <;> exact ⟨rfl, rfl, rfl, rfl, rfl⟩

theorem execDec_sameIterator (h : execDec s = .next t) : sameIterator s t := by
  unfold execDec at h
  split_ifs at h <;> cases h <;> exact ⟨rfl, rfl, rfl, rfl, rfl⟩

theorem readEntry_sameIterator {entry : Byte} (h : readEntry entry s = .next t) : sameIterator s t := by
  cases h
  exact ⟨rfl, rfl, rfl, rfl, rfl⟩

/-- Settles O18: a step that changes the iterator is reset or a completion, and ENC.x, DEC and TBLRD.x leave the iterator. -/
theorem iteratorChangesOnlyByItsCommands : Obligations.IteratorChangesOnlyByItsCommands := by
  intro s t hstep hchanged
  rcases step_engineRegisters hstep with ⟨i, hcompletes, hexec⟩ | hreset | ⟨hsame, -⟩
  · cases i with
    | encL | encU => exact absurd (encodeSlice_sameIterator hexec) hchanged
    | dec => exact absurd (execDec_sameIterator hexec) hchanged
    | tblrdEL idx | tblrdEU idx | tblrdD idx => exact absurd (readEntry_sameIterator hexec) hchanged
    | iloadL => exact .inl hcompletes
    | iloadU => exact .inr (.inl hcompletes)
    | inext => exact .inr (.inr (.inl hcompletes))
  · exact .inr (.inr (.inr hreset))
  · exact absurd hsame hchanged

/-! ## How ILOAD.x and INEXT complete -/

theorem exec_iload (upper : Bool) (s : State) :
    exec (if upper then .iloadU else .iloadL) s = loadIterator upper s := by
  cases upper <;> rfl

theorem wellFormed_iload (upper : Bool) : (if upper then Instr.iloadU else .iloadL).wellFormed = true := by
  cases upper <;> rfl

/-- Settles O46: both are `loadIterator`, for their case. -/
theorem iloadStartsAFreshIteration : Obligations.IloadStartsAFreshIteration :=
  fun s => ⟨exec_iload false s, exec_iload true s⟩

theorem exec_inext_pending (hpend : s.pend = true) : exec .inext s = finish .ok (emitPending s) := if_pos hpend

theorem exec_inext_byte (hpend : s.pend = false) (hrem : s.iterRem ≠ 0) :
    exec .inext s = finish .ok (emitHigh s) := by
  rw [exec, execInext, if_neg (by simp [hpend]), if_pos hrem]

theorem exec_inext_done (hpend : s.pend = false) (hrem : s.iterRem = 0) :
    exec .inext s = finish .ok (setResult false 0 s) := by
  rw [exec, execInext, if_neg (by simp [hpend]), if_neg (not_not_intro hrem)]

/-- Settles O47: INEXT's three cases. -/
theorem inextEmitsTheNextCharacter : Obligations.InextEmitsTheNextCharacter :=
  fun _ => ⟨exec_inext_pending, exec_inext_byte, exec_inext_done⟩

/-! ## The characters to come -/

theorem charsToCome_held (hpend : s.pend = true) : charsToCome s = 2 * s.iterRem.toNat + 1 := by
  rw [charsToCome, hpend, Bool.toNat_true]

theorem charsToCome_unheld (hpend : s.pend = false) : charsToCome s = 2 * s.iterRem.toNat := by
  rw [charsToCome, hpend, Bool.toNat_false, Nat.add_zero]

/-- Settles O48: a held character counts 1 and a byte not yet read 2; reading one leaves its low character held. -/
theorem inextCountsDownTheCharacters : Obligations.InextCountsDownTheCharacters := by
  intro s
  cases hpend : s.pend with
  | true =>
    refine ⟨_, exec_inext_pending hpend, ?_, ?_⟩ <;> rw [charsToCome_held hpend]
    · exact charsToCome_unheld rfl
    · exact iff_of_true rfl (Nat.succ_ne_zero _)
  | false =>
    by_cases hrem : s.iterRem = 0
    · refine ⟨_, exec_inext_done hpend hrem, ?_, ?_⟩ <;> rw [charsToCome_unheld hpend, hrem]
      · rw [charsToCome_unheld (by exact hpend)]
        exact congrArg (2 * BitVec.toNat ·) hrem
      · exact iff_of_false Bool.false_ne_true (absurd rfl)
    · refine ⟨_, exec_inext_byte hpend hrem, ?_, ?_⟩ <;> rw [charsToCome_unheld hpend]
      · exact (charsToCome_held rfl).trans (show 2 * (s.iterRem - 1).toNat + 1 = _ by bv_omega)
      · exact iff_of_true rfl (by bv_omega)

/-- The iteration over the `n` bytes that `f` holds from `src` has taken `k` INEXT commands: `2n - k` characters are to come,
and where one is held it is character `k` (42_iterator.md R164). -/
structure iteratesAt (upper : Bool) (src : Addr) (n : Nat) (f : ByteMap) (k : Nat) (s : State) : Prop where
  icase : s.icase = upper
  toCome : charsToCome s = 2 * n - k
  cursor : k < 2 * n → s.iterAddr = byteAddr src ((k + 1) / 2)
  held : s.pend = true → s.pchar = encodedChar (romOfCase upper) src f k

theorem iteratesAt.congr (h : iteratesAt upper src n f k s) (hsame : sameIterator s t) : iteratesAt upper src n f k t := by
  obtain ⟨haddr, hrem, hpend, hcase, hpchar⟩ := hsame
  refine ⟨hcase.trans h.icase, ?_, fun hk => haddr.trans (h.cursor hk), fun hp => hpchar.trans (h.held (hpend ▸ hp))⟩
  rw [← h.toCome, charsToCome, charsToCome, hrem, hpend]

/-- ILOAD.x starts an iteration over the source region (42_iterator.md R161). -/
theorem iteratesAt_iload (f : ByteMap) (h : loadIterator upper s = .next t) :
    iteratesAt upper s.srcAddr s.srcLen.toNat f 0 t := by
  cases h
  exact ⟨rfl, rfl, fun _ => (byteAddr_zero _).symm, nofun⟩

theorem encodedChar_high (rom : Nibble → Byte) (src : Addr) (f : ByteMap) (q : Nat) :
    encodedChar rom src f (2 * q) = rom (hiNibble (f (byteAddr src q))) := by
  simp [encodedChar]

theorem encodedChar_low (rom : Nibble → Byte) (src : Addr) (f : ByteMap) (q : Nat) :
    encodedChar rom src f (2 * q + 1) = rom (loNibble (f (byteAddr src q))) := by
  simp [encodedChar, Nat.mul_add_div]

/-- The next INEXT of an iteration over bytes that memory still holds: character `k`, or VALID = 0 at the end. -/
theorem iteratesAt.inext (h : iteratesAt upper src n f k s)
    (hsource : ∀ q < n, readByte s.mem (byteAddr src q) = f (byteAddr src q)) :
    ∃ t, exec .inext s = .next t ∧ t.err = 0 ∧ t.mem = s.mem ∧ iteratesAt upper src n f (k + 1) t ∧
      (k < 2 * n → t.resValid = true ∧ t.resValue = encodedChar (romOfCase upper) src f k) ∧
      (2 * n ≤ k → t.resValid = false ∧ t.resValue = 0) := by
  obtain ⟨rfl, hcome, hcursor, hheld⟩ := h
  obtain ⟨t, ht, hless, -⟩ := inextCountsDownTheCharacters s
  have hcome' : charsToCome t = 2 * n - (k + 1) := by omega
  cases hpend : s.pend with
  | true =>
    rw [charsToCome_held hpend] at hcome
    cases ht.symm.trans (exec_inext_pending hpend)
    refine ⟨_, ht, rfl, rfl, ⟨rfl, hcome', fun _ => ?_, nofun⟩, fun _ => ⟨rfl, hheld hpend⟩, fun _ => by omega⟩
    rw [show (k + 1 + 1) / 2 = (k + 1) / 2 by omega]
    exact hcursor (by omega)
  | false =>
    rw [charsToCome_unheld hpend] at hcome
    by_cases hrem : s.iterRem = 0
    · have hzero : s.iterRem.toNat = 0 := congrArg BitVec.toNat hrem
      cases ht.symm.trans (exec_inext_done hpend hrem)
      exact ⟨_, ht, rfl, rfl, ⟨rfl, hcome', fun _ => by omega, fun hp => nomatch hpend.symm.trans hp⟩,
        fun _ => by omega, fun _ => ⟨rfl, rfl⟩⟩
    · have hpos : s.iterRem.toNat ≠ 0 := fun h0 => hrem (BitVec.eq_of_toNat_eq h0)
      obtain ⟨q, rfl⟩ : ∃ q, k = 2 * q := ⟨k / 2, by omega⟩
      have haddr : s.iterAddr = byteAddr src q := by
        rw [hcursor (by omega), show (2 * q + 1) / 2 = q by omega]
      have hbyte : readByte s.mem s.iterAddr = f (byteAddr src q) := by rw [haddr, hsource q (by omega)]
      cases ht.symm.trans (exec_inext_byte hpend hrem)
      refine ⟨_, ht, rfl, rfl, ⟨rfl, hcome', fun _ => ?_, fun _ => ?_⟩, fun _ => ⟨rfl, ?_⟩, fun _ => by omega⟩
      · rw [show (2 * q + 1 + 1) / 2 = q + 1 by omega, byteAddr_succ, ← haddr]
        rfl
      · rw [encodedChar_low, ← hbyte]
        rfl
      · rw [encodedChar_high, ← hbyte]
        rfl

theorem iteratesAt.afterInexts {j : Nat} (h : iteratesAt upper src n (readByte s.mem) j s) (k : Nat) :
    ∃ u, afterInexts k s = .next u ∧ u.mem = s.mem ∧ iteratesAt upper src n (readByte s.mem) (j + k) u := by
  induction k generalizing j s with
  | zero => exact ⟨s, rfl, rfl, h⟩
  | succ k ih =>
    obtain ⟨t, ht, -, hmem, hat, -⟩ := h.inext fun _ _ => rfl
    obtain ⟨u, hu, humem, huat⟩ := ih (hmem ▸ hat)
    refine ⟨u, by simp only [Machine.afterInexts, ht, hu], humem.trans hmem, ?_⟩
    rwa [hmem, Nat.add_assoc, Nat.add_comm 1 k] at huat

/-- Settles O49: ILOAD.x starts at character 0, and each INEXT is `iteratesAt.inext`. -/
theorem iterationYieldsTheEncoding : Obligations.IterationYieldsTheEncoding := by
  intro s t upper ht k
  rw [exec_iload] at ht
  have hstart := iteratesAt_iload (readByte t.mem) ht
  have hmem : t.mem = s.mem := by cases ht; rfl
  obtain ⟨u, hu, humem, hat⟩ := hstart.afterInexts k
  rw [Nat.zero_add] at hat
  obtain ⟨v, hv, herr, hvmem, -, hchar, hend⟩ := hat.inext fun _ _ => by rw [humem]
  exact ⟨u, v, hu, hv, herr, hvmem.trans (humem.trans hmem), hmem ▸ hchar, hend⟩

end Sys2Proof.Machine
end

section
/-! ENCODE_ITER (42_iterator.md R165): the host's loop over INEXT, run from an idle block. -/

namespace Sys2Proof.Machine

variable {s s₀ t u : State} {upper : Bool} {src dst : Addr} {n k : Nat} {rest : List HostAction}

/-! ## The loop's lines -/

/-- On an idle block a command's line is its acceptance (30_encoding.md R85, R97). -/
theorem hostBusWrite_command {i : Instr} (hi : i.wellFormed = true) (hb : s.busy = false) (hr : s.resetAsserted = false) :
    hostBusWrite (regOffset .cmd) (encode i) s = accept (encode i) s := by
  obtain ⟨hissue, -⟩ := busWrite_idle hb (slotOf (regOffset .cmd)) (encode i)
  rw [hostBusWrite_eq_busWrite hr, hissue rfl, issue_instr (decode_encode hi)]

/-- Acceptance looks at no pending action (30_encoding.md R85). -/
theorem pushTodo_accept (acts : List HostAction) (v : Word) (s : State) :
    pushTodo acts (accept v s) = accept v (pushTodo acts s) := by
  simp only [accept, pushTodo, drawLatency]
  split <;> rfl

/-- On an idle block the label `loop:` stands for the lines `INEXT`, `poll` and `rd RESULT` (42_iterator.md R165). -/
theorem step_iterLoop (hb : s.busy = false) (hr : s.resetAsserted = false) (htodo : s.env.todo = .iterLoop dst :: rest) :
    step s = step { s with env.todo := command .inext :: .poll :: .iterRead dst :: rest } := by
  rw [step_hostTakes ⟨.inl hb, htodo⟩, step_hostTakes ⟨.inl (by exact hb), rfl⟩]
  simp only [command, wr, hostAct, hostIterLoop, envAfter_of_idle hb]
  rw [hostBusWrite_command rfl (by exact hb) (by exact hr), hostBusWrite_command rfl (by exact hb) (by exact hr),
    pushTodo_accept]
  rfl

/-- A state that steps like `t` reaches every other state that `t` reaches. -/
theorem reaches_of_step_eq (h : step s = step t) (hrun : reaches t u) (hne : u ≠ t) : reaches s u := by
  obtain ⟨_ | j, hrun⟩ := hrun
  · exact absurd (Host.Outcome.next.inj hrun).symm hne
  · exact ⟨j + 1, by simpa only [Host.Core.run, core, h] using hrun⟩

/-- One round up to its `rd RESULT`: INEXT completes, with every latency (R165). -/
theorem reaches_iterRead (hb : s.busy = false) (hr : s.resetAsserted = false)
    (htodo : s.env.todo = .iterLoop dst :: rest) (hu : exec .inext s = .next u) :
    ∃ e : Env, reaches s { u with badcmd := false, env := e } ∧ e.todo = .iterRead dst :: rest := by
  obtain ⟨e, hrun, he⟩ := reaches_command_poll
    (s := { s with env.todo := command .inext :: .poll :: .iterRead dst :: rest }) rfl hb hr rfl (exec_with_env hu _)
  refine ⟨e, reaches_of_step_eq (step_iterLoop hb hr htodo) hrun fun heq => ?_, he⟩
  have hsame : e.todo = command .inext :: .poll :: .iterRead dst :: rest := congrArg (fun w : State => w.env.todo) heq
  nomatch he.symm.trans hsame

theorem resultWord_valid (s : State) : (resultWord s).getLsbD 8 = s.resValid := by
  have := s.resValue.isLt
  rw [BitVec.getLsbD, Nat.testBit_eq_decide_div_mod_eq, resultWord_toNat,
    show (s.resValue.toNat + 256 * s.resValid.toNat) / 2 ^ 8 = s.resValid.toNat by omega]
  cases s.resValid <;> rfl

theorem resultWord_value (s : State) : (resultWord s).extractLsb' 0 8 = s.resValue := by
  refine BitVec.eq_of_toNat_eq ?_
  have := s.resValue.isLt
  rw [BitVec.extractLsb'_toNat, resultWord_toNat, Nat.shiftRight_zero]
  omega

/-- On an idle block the host reads RESULT and goes by VALID (30_encoding.md R82, 42_iterator.md R165). -/
theorem hostIterRead_idle (hb : s.busy = false) (hr : s.resetAsserted = false) (dst : Addr) :
    hostIterRead dst s =
      if s.resValid then
        pushTodo [.memWrite dst s.resValue, .iterLoop (dst + 1)] (hostBusRead (regOffset .result) s)
      else hostBusRead (regOffset .result) s := by
  have hread : readValue (regOffset .result) s = some (resultWord s) := by
    rw [readValue_eq_busReadWord hr, busReadWord_eq_slotWord (.inl hb)]
    rfl
  simp only [hostIterRead, hread, resultWord_valid, resultWord_value]

/-- `rd RESULT` and its branch change only the outside world's side (R165). -/
theorem step_iterRead (hb : s.busy = false) (hr : s.resetAsserted = false) (htodo : s.env.todo = .iterRead dst :: rest) :
    ∃ e : Env, step s = .next { s with env := e } ∧
      e.todo = if s.resValid then .memWrite dst s.resValue :: .iterLoop (dst + 1) :: rest else rest := by
  let s' : State := { s with env.todo := rest }
  have hstep : step s = .next (hostIterRead dst s') := by
    rw [step_hostTakes ⟨.inl hb, htodo⟩, envAfter_of_idle hb, hostAct]
  rw [hostIterRead_eq] at hstep
  refine ⟨_, hstep, ?_⟩
  rw [hostIterRead_idle (by exact hb) (by exact hr)]
  split
  · exact congrArg ([.memWrite dst s.resValue, .iterLoop (dst + 1)] ++ ·) (hostBusRead_todo _ s')
  · exact hostBusRead_todo _ s'

/-- With VALID = 1 the host stores the character and goes on with the next address (R165). -/
theorem reaches_iterStore (hb : s.busy = false) (hr : s.resetAsserted = false) (hvalid : s.resValid = true)
    (htodo : s.env.todo = .iterRead dst :: rest) :
    ∃ e : Env, reaches s { s with mem := writeByte s.mem dst s.resValue, env := e } ∧
      e.todo = .iterLoop (dst + 1) :: rest := by
  obtain ⟨e, hread, he⟩ := step_iterRead hb hr htodo
  rw [if_pos hvalid] at he
  have hwrite := step_hostTakes (s := { s with env := e }) ⟨.inl hb, he⟩
  rw [envAfter_of_idle (by exact hb), hostAct, hostMemWrite_idle (by exact hb)] at hwrite
  exact ⟨_, (reaches_of_step hread).trans (reaches_of_step hwrite), rfl⟩

/-- With VALID = 0 the loop ends (R165). -/
theorem reaches_iterEnd (hb : s.busy = false) (hr : s.resetAsserted = false) (hvalid : s.resValid = false)
    (htodo : s.env.todo = .iterRead dst :: rest) :
    ∃ e : Env, reaches s { s with env := e } ∧ e.todo = rest := by
  obtain ⟨e, hread, he⟩ := step_iterRead hb hr htodo
  exact ⟨e, reaches_of_step hread, he.trans (if_neg (by simp [hvalid]))⟩

/-! ## The loop -/

/-- A region that shares no byte with a non-empty one is not the whole memory (20_memory.md R62). -/
theorem disjointRegions.lt {m : Nat} (h : disjointRegions src n dst m) (hn : 0 < n) : m < 2 ^ 32 := by
  by_contra hm
  obtain ⟨k, hk, heq⟩ := (Region.contains_iff (r := ⟨dst, 2 ^ 32⟩) le_rfl (byteAddr src 0)).1
    (decide_eq_true (BitVec.isLt _))
  exact h 0 hn k (hk.trans_le (not_lt.1 hm)) heq

/-- The loop stands at character `k`: the characters before it are at `dst`, and no other byte of `s₀`'s memory has
changed. -/
structure collects (s₀ : State) (upper : Bool) (src : Addr) (n : Nat) (dst : Addr) (k : Nat) (s : State) : Prop where
  idle : s.busy = false
  notReset : s.resetAsserted = false
  wf : Memory.wf s.mem = true
  iterator : iteratesAt upper src n (readByte s₀.mem) k s
  chars : ∀ j < k, readByte s.mem (byteAddr dst j) = encodedChar (romOfCase upper) src (readByte s₀.mem) j
  frame : sameMemoryOutside dst k s₀ s

theorem collects.source (h : collects s₀ upper src n dst k s) (hdisj : disjointRegions src n dst (2 * n))
    (hk : k ≤ 2 * n) {q : Nat} (hq : q < n) :
    readByte s.mem (byteAddr src q) = readByte s₀.mem (byteAddr src q) :=
  h.frame _ fun j hj => hdisj q hq j (by omega)

/-- A round up to its `rd RESULT`: INEXT has given character `k`, or VALID = 0 at the end. -/
theorem collects.iterRead (h : collects s₀ upper src n dst k s) (hdisj : disjointRegions src n dst (2 * n))
    (hk : k ≤ 2 * n) (htodo : s.env.todo = .iterLoop (byteAddr dst k) :: rest) :
    ∃ u, reaches s u ∧ u.env.todo = .iterRead (byteAddr dst k) :: rest ∧ u.busy = false ∧ u.resetAsserted = false ∧
      u.err = 0 ∧ u.mem = s.mem ∧ iteratesAt upper src n (readByte s₀.mem) (k + 1) u ∧
      (k < 2 * n → u.resValid = true ∧ u.resValue = encodedChar (romOfCase upper) src (readByte s₀.mem) k) ∧
      (2 * n ≤ k → u.resValid = false ∧ u.resValue = 0) := by
  obtain ⟨u, hu, herr, hmem, hat, hchar, hend⟩ := h.iterator.inext fun q hq => h.source hdisj hk hq
  obtain ⟨hidle, -, -, -, -, hreset, -⟩ := exec_completed hu
  obtain ⟨e, hrun, he⟩ := reaches_iterRead h.idle h.notReset htodo hu
  exact ⟨_, hrun, he, hidle, hreset.trans h.notReset, herr, hmem, hat.congr ⟨rfl, rfl, rfl, rfl, rfl⟩, hchar, hend⟩

/-- A round that finds a character stores it and goes round again. -/
theorem collects.round (h : collects s₀ upper src n dst k s) (hdisj : disjointRegions src n dst (2 * n))
    (hk : k < 2 * n) (htodo : s.env.todo = .iterLoop (byteAddr dst k) :: rest) :
    ∃ t, reaches s t ∧ t.env.todo = .iterLoop (byteAddr dst (k + 1)) :: rest ∧
      collects s₀ upper src n dst (k + 1) t := by
  have hsize := hdisj.lt (by omega)
  obtain ⟨u, hinext, htodo', hidle, hreset, -, hmem, hat, hchar, -⟩ := h.iterRead hdisj hk.le htodo
  obtain ⟨hvalid, hvalue⟩ := hchar hk
  obtain ⟨e, hstore, he⟩ := reaches_iterStore hidle hreset hvalid htodo'
  have hwf : Memory.wf u.mem = true := hmem ▸ h.wf
  refine ⟨_, hinext.trans hstore, he.trans (by rw [byteAddr_succ]), hidle, hreset, wf_writeByte hwf _ _,
    hat.congr ⟨rfl, rfl, rfl, rfl, rfl⟩, fun j hj => ?_, fun a ha => ?_⟩
  · rcases Nat.lt_succ_iff_lt_or_eq.1 hj with hlt | rfl
    · refine (readByte_writeByte_ne hwf _ (byteAddr_ne (by omega) (by omega) (by omega))).trans ?_
      rw [hmem]
      exact h.chars j hlt
    · exact (readByte_writeByte_self hwf _ _).trans hvalue
  · refine (readByte_writeByte_ne hwf _ (ha k (by omega))).trans ?_
    rw [hmem]
    exact h.frame a fun j hj => ha j (by omega)

/-- The round after the last character ends the loop. -/
theorem collects.last (h : collects s₀ upper src n dst (2 * n) s) (hdisj : disjointRegions src n dst (2 * n))
    (htodo : s.env.todo = .iterLoop (byteAddr dst (2 * n)) :: rest) :
    ∃ t, reaches s t ∧ t.env.todo = rest ∧ t.busy = false ∧ t.err = 0 ∧ t.resValid = false ∧ t.mem = s.mem := by
  obtain ⟨u, hinext, htodo', hidle, hreset, herr, hmem, -, -, hend⟩ := h.iterRead hdisj le_rfl htodo
  obtain ⟨hvalid, -⟩ := hend le_rfl
  obtain ⟨e, hstop, he⟩ := reaches_iterEnd hidle hreset hvalid htodo'
  exact ⟨_, hinext.trans hstop, he, hidle, herr, hvalid, hmem⟩

/-- From any character the loop collects the rest, by induction on the number `r` of characters to come. -/
theorem collects.run {r : Nat} (h : collects s₀ upper src n dst k s) (hdisj : disjointRegions src n dst (2 * n))
    (hr : k + r = 2 * n) (htodo : s.env.todo = .iterLoop (byteAddr dst k) :: rest) :
    ∃ t, reaches s t ∧ t.env.todo = rest ∧ t.busy = false ∧ t.err = 0 ∧ t.resValid = false ∧
      (∀ j < 2 * n, readByte t.mem (byteAddr dst j) = encodedChar (romOfCase upper) src (readByte s₀.mem) j) ∧
      sameMemoryOutside dst (2 * n) s₀ t := by
  induction r generalizing k s with
  | zero =>
    obtain rfl : k = 2 * n := hr
    obtain ⟨t, hrun, htodo', hidle, herr, hvalid, hmem⟩ := h.last hdisj htodo
    exact ⟨t, hrun, htodo', hidle, herr, hvalid, hmem ▸ h.chars, fun a ha => hmem ▸ h.frame a ha⟩
  | succ r ih =>
    obtain ⟨u, hround, htodo', hnext⟩ := h.round hdisj (by omega) htodo
    obtain ⟨t, hrun, hend⟩ := ih hnext (by omega) htodo'
    exact ⟨t, hround.trans hrun, hend⟩

/-! ## The expansion -/

/-- The lines before the label `loop:` start the iteration over the source (R165). -/
theorem reaches_loop {n : Word} (hm : Memory.wf s.mem = true) (hb : s.busy = false) (hr : s.resetAsserted = false)
    (htodo : s.env.todo = pseudoEncodeIter upper src n dst ++ rest) :
    ∃ t, reaches s t ∧ t.env.todo = .iterLoop dst :: rest ∧ collects s upper src n.toNat dst 0 t := by
  let w : State :=
    { s with srcAddr := src, srcLen := n,
             env.todo := command (if upper then .iloadU else .iloadL) :: .poll :: .iterLoop dst :: rest }
  have hoperands : reaches s w := by
    cases s
    cases hb
    cases hr
    refine (reaches_wr rfl rfl htodo).trans ?_
    refine (reaches_wr rfl rfl rfl).trans ?_
    exact reaches.refl _
  obtain ⟨u, hu⟩ := exec_answers_next (if upper then .iloadU else .iloadL) w
  obtain ⟨e, hload, he⟩ := reaches_command_poll (s := w) (wellFormed_iload upper) hb hr rfl hu
  refine ⟨_, hoperands.trans hload, he, ?_⟩
  rw [exec_iload] at hu
  have hstart := iteratesAt_iload (readByte s.mem) hu
  cases hu
  exact ⟨rfl, hr, hm, hstart.congr ⟨rfl, rfl, rfl, rfl, rfl⟩, nofun, fun _ _ => rfl⟩

/-- Settles O58: after ILOAD.x the loop stands at character 0 of 2n. -/
theorem encodeIterCollectsTheEncoding : Obligations.EncodeIterCollectsTheEncoding := by
  intro s upper src dst n rest hInv hb hr htodo hdisj
  obtain ⟨u, hload, htodo', hstart⟩ := reaches_loop hInv.mem_wf hb hr htodo
  obtain ⟨t, hloop, hend⟩ := hstart.run hdisj (Nat.zero_add _) (by rw [byteAddr_zero, htodo'])
  obtain ⟨k, hrun⟩ := hload.trans hloop
  exact ⟨k, t, hrun, hend⟩

end Sys2Proof.Machine
end

section
/-! Table reads (43_table_read.md): TBLRD.EL, TBLRD.EU and TBLRD.D (R180–R183). -/

namespace Sys2Proof.Machine

/-- RESULT takes the entry, `ok()` clears the error record and the command completes (43_table_read.md R180). -/
theorem readEntry_eq (entry : Byte) (s : State) :
    readEntry entry s = .next
      { s with
        resValid := true, resValue := entry,
        err := 0, errChar := 0, errIndex := 0, busy := false, done := true, latch := none } := rfl

/-- With OP = 5 and T = 0 an index of 16 or more is reserved, whatever CASE is (30_encoding.md R89, R91). -/
theorem decode_wordWithIdx_reserved {base : Word} {idx : Byte} (hbase : base.toNat < 256) (hop : base.toNat % 16 = 5)
    (ht : base.toNat / 32 % 2 = 0) (hidx : 16 ≤ idx.toNat) : ∃ why, decode (wordWithIdx base idx) = .reserved why := by
  rw [decode_reserved_iff, wordWithIdx_toNat hbase]
  omega

/-- Settles O50: each command is `readEntry` of its ROM's entry, and DEC_ROM's entries are nibbles or 0xFF (R26). -/
theorem tableReadsReturnTheEntry : Obligations.TableReadsReturnTheEntry := by
  intro s idx
  obtain ⟨hentries, -⟩ := decodeRomInvertsTheEncodeRoms
  refine ⟨fun _ => ⟨?lower, ?upper⟩, fun hidx => ⟨?lowerReserved, ?upperReserved⟩, ?decodeRom, hentries idx⟩
  case lower => exact readEntry_eq (encLoRom (loNibble idx)) s
  case upper => exact readEntry_eq (encUpRom (loNibble idx)) s
  case lowerReserved => exact decode_wordWithIdx_reserved (by decide) (by decide) (by decide) hidx
  case upperReserved => exact decode_wordWithIdx_reserved (by decide) (by decide) (by decide) hidx
  case decodeRom => exact readEntry_eq (decRom idx) s

end Sys2Proof.Machine
end

section
/-! Errors and the idle machine (60_exceptions.md): who changes the error record, what a command's outcome depends on, and the
machine between commands (R194–R207). -/

namespace Sys2Proof.Machine

variable {s s' t t' u u' : State} {r : CmdResult}

/-! ## Who changes the error record -/

/-- Settles O20: a host turn other than reset's, a rejected word's too, leaves the registers only the engine writes. -/
theorem errorRecordChangesOnlyByCompletion : Obligations.ErrorRecordChangesOnlyByCompletion := by
  intro s t hstep hchanged
  rcases step_engineRegisters hstep with ⟨i, hcompletes, -⟩ | hreset | ⟨-, -, hsame⟩
  · exact .inl ⟨i, hcompletes⟩
  · exact .inr hreset
  · exact absurd hsame hchanged

/-! ## What a command's outcome depends on -/

/-- Two completions have the same outcome: the error record, the memory and the iterator (R194, R197). -/
def sameOutcome (t t' : State) : Prop := sameErrorRecord t t' ∧ t'.mem = t.mem ∧ sameIterator t t'

/-- The error record comes from the result alone, and completing leaves memory and the iterator (R194, R198). -/
theorem finish_sameOutcome (h : finish r u = .next t) (h' : finish r u' = .next t') (hmem : u'.mem = u.mem)
    (hiter : sameIterator u u') : sameOutcome t t' := by
  cases h
  cases h'
  exact ⟨⟨rfl, rfl, rfl⟩, hmem, hiter⟩

theorem encodeSlice_sameOutcome {rom : Nibble → Byte} (hops : sameOperands s s') (hiter : sameIterator s s')
    (hmem : s'.mem = s.mem) (h : encodeSlice rom s = .next t) (h' : encodeSlice rom s' = .next t') : sameOutcome t t' := by
  obtain ⟨hsrc, hn, hdst, hm⟩ := hops
  unfold encodeSlice at h h'
  rw [hsrc, hn, hdst, hm, hmem] at h'
  split_ifs at h h'
  · exact finish_sameOutcome h h' rfl hiter
  · exact finish_sameOutcome h h' hmem hiter

/-- DEC's result and memory are `decLoop`'s, from the operands and the memory. -/
theorem execDec_sameOutcome (hops : sameOperands s s') (hiter : sameIterator s s') (hmem : s'.mem = s.mem)
    (h : execDec s = .next t) (h' : execDec s' = .next t') : sameOutcome t t' := by
  obtain ⟨hsrc, hn, hdst, hm⟩ := hops
  unfold execDec at h h'
  rw [hsrc, hn, hdst, hm, hmem] at h'
  split_ifs at h h'
  · exact finish_sameOutcome h h' hmem hiter
  · exact finish_sameOutcome h h' rfl hiter
  · exact finish_sameOutcome h h' hmem hiter

theorem loadIterator_sameOutcome {upper : Bool} (hops : sameOperands s s') (hmem : s'.mem = s.mem)
    (h : loadIterator upper s = .next t) (h' : loadIterator upper s' = .next t') : sameOutcome t t' := by
  obtain ⟨hsrc, hn, -⟩ := hops
  exact finish_sameOutcome h h' hmem ⟨hsrc, hn, rfl, rfl, rfl⟩

/-- The character INEXT comes to hold is that of the byte at the cursor, in the iterator's case (42_iterator.md R163). -/
theorem emitHigh_sameIterator (hiter : sameIterator s s') (hmem : s'.mem = s.mem) :
    sameIterator (emitHigh s) (emitHigh s') := by
  obtain ⟨haddr, hrem, -, hcase, -⟩ := hiter
  simp [sameIterator, emitHigh, haddr, hrem, hcase, hmem]

theorem execInext_sameOutcome (hiter : sameIterator s s') (hmem : s'.mem = s.mem)
    (h : execInext s = .next t) (h' : execInext s' = .next t') : sameOutcome t t' := by
  have ⟨haddr, hrem, hpend, hcase, _⟩ := hiter
  unfold execInext at h h'
  rw [hpend, hrem] at h'
  split_ifs at h h'
  · exact finish_sameOutcome h h' hmem ⟨haddr, hrem, rfl, hcase, rfl⟩
  · exact finish_sameOutcome h h' hmem (emitHigh_sameIterator hiter hmem)
  · exact finish_sameOutcome h h' hmem hiter

theorem readEntry_sameOutcome {entry : Byte} (hiter : sameIterator s s') (hmem : s'.mem = s.mem)
    (h : readEntry entry s = .next t) (h' : readEntry entry s' = .next t') : sameOutcome t t' :=
  finish_sameOutcome h h' hmem hiter

/-- Settles O31: each command's checks, loop and iterator read the operand registers, the iterator and memory only. -/
theorem outcomeDependsOnlyOnOperands : Obligations.OutcomeDependsOnlyOnOperands := by
  intro i s s' t t' hops hiter hmem h h'
  cases i with
  | encL | encU => exact encodeSlice_sameOutcome hops hiter hmem h h'
  | dec => exact execDec_sameOutcome hops hiter hmem h h'
  | iloadL | iloadU => exact loadIterator_sameOutcome hops hmem h h'
  | inext => exact execInext_sameOutcome hiter hmem h h'
  | tblrdEL idx | tblrdEU idx | tblrdD idx => exact readEntry_sameOutcome hiter hmem h h'

/-! ## Between commands -/

/-- Settles O11: with BUSY = 0 an idle turn of the outside world uses up no host turn, so even the model's own fields stay. -/
theorem idleMachineKeepsItsState : Obligations.IdleMachineKeepsItsState := by
  intro s hb htodo
  rw [step_hostIdle (.inl hb) htodo, ← htodo, envAfter_idle hb]

end Sys2Proof.Machine
end

section
/-! Reset (70_reset_and_hazards.md section 1): the reset values (R221), an abandoned command (R225) and the block in reset
(R220). -/

namespace Sys2Proof.Machine

variable {s : State}

/-! ## The assertion of reset -/

/-- Reset puts every register at its reset value, over whatever was running (R221, R225). -/
theorem atResetValues_assertReset (s : State) : atResetValues (assertReset s) := rfl

theorem abandonWriteSet_idle (hb : s.busy = false) : abandonWriteSet s = s.mem := by
  rw [abandonWriteSet, running_idle hb]

/-- Settles O25: the step is `assertReset`, whose memory is `abandonWriteSet`. -/
theorem assertingResetAbandonsTheCommand : Obligations.AssertingResetAbandonsTheCommand := by
  intro s rest hm htakes
  let s' : State := { s with env := envAfter s rest }
  refine ⟨assertReset s', step_hostTakes htakes, atResetValues_assertReset s', rfl, rfl, fun a ha => ?outside,
    fun hb => ?idle⟩
  case outside => exact readByte_abandonWriteSet_outside (s := s') hm ha
  case idle => exact abandonWriteSet_idle (s := s') hb

/-! ## The reset values -/

/-- The packed words and the plain registers alike are 0 (R221). -/
theorem slotWord_reset : ∀ slot, slotWord slot State.reset = 0 := by decide

/-- Settles O24: `slotWord_reset`, and the fields as `State.reset` lists them. -/
theorem resetRegistersReadZero : Obligations.ResetRegistersReadZero :=
  ⟨slotWord_reset, rfl, rfl, rfl, rfl, rfl, rfl, rfl, rfl, rfl, rfl, rfl, rfl, rfl, rfl, rfl, rfl, rfl, rfl⟩

/-! ## While reset is asserted -/

/-- In reset no command runs: BUSY has its reset value (R220). -/
theorem Inv.idle_of_reset (h : Inv s) (hr : s.resetAsserted = true) : s.busy = false :=
  eq_false_of_ne_true fun hb => Bool.false_ne_true ((h.notReset_of_busy hb).symm.trans hr)

theorem hostBusWrite_inReset (hr : s.resetAsserted = true) (off : BitVec 6) (v : Word) : hostBusWrite off v s = s :=
  if_pos hr

theorem hostBusRead_inReset (hr : s.resetAsserted = true) (off : BitVec 6) :
    hostBusRead off s = observe (.reg off none) s := by
  simp [hostBusRead, readValue, hr]

/-- The reset values do not depend on the reset input's level (R221). -/
theorem atResetValues_releaseReset (h : atResetValues s) : atResetValues (releaseReset s) :=
  (congrArg (fun u : State => { u with resetAsserted := false }) h :)

/-- In reset BUSY = 0, so the next action is taken and no host turn is used up (log 3). -/
theorem Inv.step_inReset {act : HostAction} {rest : List HostAction} (h : Inv s) (hr : s.resetAsserted = true)
    (htodo : s.env.todo = act :: rest) : step s = hostAct act { s with env := { s.env with todo := rest } } := by
  have hb : s.busy = false := h.idle_of_reset hr
  rw [step_hostTakes ⟨.inl hb, htodo⟩, envAfter_of_idle hb]

/-- Settles O26: in reset the block is idle and turns bus accesses away, and its release keeps the reset values. -/
theorem noBusAccessInReset : Obligations.NoBusAccessInReset := by
  intro s rest hInv hr
  let s' : State := { s with env := { s.env with todo := rest } }
  have hreset : atResetValues s' := (hInv.with_env s'.env).in_reset hr
  refine ⟨fun off v htodo => ?write, fun off htodo => ?read, fun htodo => ?release⟩
  case write => exact (hInv.step_inReset hr htodo).trans (congrArg _ (hostBusWrite_inReset (s := s') hr off v))
  case read => exact (hInv.step_inReset hr htodo).trans (congrArg _ (hostBusRead_inReset (s := s') hr off))
  case release =>
    exact ⟨releaseReset s', hInv.step_inReset hr htodo, rfl, hInv.idle_of_reset hr, atResetValues_releaseReset hreset⟩

end Sys2Proof.Machine
end

section
/-! Encoding and decoding (30_encoding.md sections 2 and 3): Decode inverts the words of R87 (R90), and the table's words written
out. -/

namespace Sys2Proof

/-- Settles O1: `encode_eq_of_decode` and `decode_encode`, one for each direction. -/
theorem decodeInvertsEncodeExactly : Obligations.DecodeInvertsEncodeExactly := by
  intro v i
  constructor
  · exact encode_eq_of_decode
  · rintro ⟨hwf, rfl⟩
    exact decode_encode hwf

/-- Settles O4: each word is the word of its command, which `decode_encode` decodes. -/
theorem wordsOfTheTableDecode : Obligations.WordsOfTheTableDecode :=
  ⟨decode_encode (i := .encL) rfl, decode_encode (i := .encU) rfl, decode_encode (i := .dec) rfl,
    decode_encode (i := .iloadL) rfl, decode_encode (i := .iloadU) rfl, decode_encode (i := .inext) rfl,
    decode_encode (i := .tblrdEL 0x0A) rfl, decode_encode (i := .tblrdEU 0x0B) rfl,
    decode_encode (i := .tblrdD 0x46) rfl⟩

end Sys2Proof
end
